-- ==== Sys2Proof/Word.lean ====
section
/-! DEFINITION. The plain types of spec/00_scope.md rules R14 and R16: bytes, the command word, the colour word, pixels. -/

namespace Sys2Proof

/-- R16: `Byte` is an unsigned 8-bit value; bit 7 is its most significant bit (R14). -/
abbrev Byte := BitVec 8

/-- R90: a command is one 64-bit command word, bit 63 the most significant. -/
abbrev CmdWord := BitVec 64

/-- R84: the 24-bit colour word of Protocol B. -/
abbrev ColourWord := BitVec 24

/-- R83: one 4-bit Protocol B symbol. -/
abbrev Symbol := BitVec 4

/-- R16, R20: a pixel is three 8-bit unsigned channel values; every combination is legal. -/
structure Pixel where
  red : Byte
  green : Byte
  blue : Byte
deriving DecidableEq, Repr, Inhabited

end Sys2Proof
end

