-- ==== Sys2Proof/Config.lean ====
section
/-! DEFINITION. What is fixed for one instance of the block (spec/00_scope.md rule R12), and the free values the spec
leaves to the environment (R10): opaque constants without a body, so no proof can see what they are. -/

namespace Sys2Proof

/-- The `X` of the rules: encoder A or encoder B (R1, R2). -/
inductive Side where
  | A
  | B
deriving DecidableEq, Repr, Inhabited

/-- R16: the `clock_idle` field of a bus mode. -/
inductive ClockIdle where
  | low
  | high
deriving DecidableEq, Repr, Inhabited

/-- R16: the `sample_edge` field of a bus mode. -/
inductive SampleEdge where
  | leading
  | trailing
deriving DecidableEq, Repr, Inhabited

/-- R16: `Mode`, the bus signal mode a `configure` call carries. -/
structure BusMode where
  clockIdle : ClockIdle
  sampleEdge : SampleEdge
deriving DecidableEq, Repr, Inhabited

/-- R187: what becomes of chip-select after a failed transport write. -/
inductive CsOnError where
  | held
  | released
deriving DecidableEq, Repr, Inhabited

/-- R12, U19: which labels besides 0 are values of `TransportError`, under no law: with it the type is left open, a
parameter of the block (assumption log 6). -/
opaque Config.isTransportError : Nat → Bool

/-- R12, U19: the error value a transport write may return, any non-empty type: the labels `Config.isTransportError`
allows, and label 0 so that there is one. Which others there are is open, so a claim over its values holds for every
such type. Nothing in the model looks into a label (DESIGN CHOICE for the labels, assumption log 6). -/
structure TransportError where
  label : Nat
  legal : label = 0 ∨ Config.isTransportError label = true
deriving DecidableEq, Repr

/-- What the transport does with one `write` (R184, R188, R71). -/
inductive Reply where
  /-- The whole sequence reached the bus. -/
  | ok
  /-- The write failed with `t`; the first `sent` bytes of the sequence (all of it if there are fewer) reached the bus. -/
  | err (t : TransportError) (sent : Nat)
  /-- The write never returns (R71, U13). -/
  | never
deriving DecidableEq, Repr, Inhabited

/-- The OPEN parameters of R12, fixed when the block is instantiated and written by no command (R39). -/
structure Params where
  /-- `N_A`, the pixel count of encoder A. -/
  nA : Nat
  /-- `N_B`, the pixel count of encoder B. -/
  nB : Nat
  /-- `END_FRAME_BYTES`, the number of `0xFF` bytes in encoder A's end frame. -/
  endFrameBytes : Nat
  /-- `CLOCK_A_HZ`, the bus clock rate encoder A configures. -/
  clockAHz : Nat
  /-- `MODE_B`, the bus mode encoder B configures. -/
  modeB : BusMode
  /-- `HAS_CS_A`: a chip-select output is wired to encoder A. -/
  hasCsA : Bool
  /-- `HAS_CS_B`: a chip-select output is wired to encoder B. -/
  hasCsB : Bool
  /-- `CS_ON_ERROR`. -/
  csOnError : CsOnError
deriving DecidableEq, Repr, Inhabited

/-- `HAS_CS_X`. -/
def Params.hasCs (p : Params) : Side → Bool
  | .A => p.hasCsA
  | .B => p.hasCsB

namespace Config

/-- R12: `MODE_A` is fixed, clock idle low and data sampled on the leading edge. -/
def modeA : BusMode := ⟨.low, .leading⟩

/-- R12: `CLOCK_B_HZ` is fixed at 4 MHz. -/
def clockBHz : Nat := 4000000

/-- R12: `START_FRAME_BYTES` is fixed at 4. -/
def startFrameBytes : Nat := 4

/-- The parameters of `State.reset`. `END_FRAME_BYTES` and `MODE_B` are the defaults of R12; every other value is the
model's (DESIGN CHOICE, assumption log 2), the least legal one where there is a least. No rule depends on them, and
no statement rests on one. -/
def resetParams : Params where
  nA := 1
  nB := 1
  endFrameBytes := 4
  clockAHz := 1
  modeB := ⟨.low, .leading⟩
  hasCsA := true
  hasCsB := true
  csOnError := .held

/-- R43, R44: what pixel `k` of `PIX_A` holds before anything has been stored there, under no law (log 3). -/
opaque initialPixA : Nat → Pixel

/-- R43, R44: what byte `a` of `WIRE_A` holds before anything has been stored there, under no law (log 3). -/
opaque initialWireA : Nat → Byte

/-- R43, R44: what byte `a` of `WIRE_B` holds before anything has been stored there, under no law (log 3). -/
opaque initialWireB : Nat → Byte

/-- R184, R188: what the transport of `X` does with the write numbered `n` among those whose reply the state does not
list, under no law (log 4). -/
opaque transportReply : Side → Nat → Reply

end Config

end Sys2Proof
end

