-- ==== Sys2Proof/Syntax.lean ====
section
/-! DEFINITION. The ten commands of spec/30_encoding.md rule R95, as the abstract command type of rule R106. -/

namespace Sys2Proof

/-- R106: one constructor per row of the opcode map R95. Brightness is an 8-bit value (R23: a wider one cannot be
expressed). Indices and counts are natural numbers (R94); `Instr.wf` keeps them to their 16-bit fields (log 17). -/
inductive Instr where
  /-- `A.INIT` (R123). -/
  | aInit
  /-- `A.HDR brightness` (R124). -/
  | aHdr (brightness : Byte)
  /-- `A.ENCPX (r, g, b), brightness` (R125). -/
  | aEncPx (pixel : Pixel) (brightness : Byte)
  /-- `A.ENC1 (r, g, b), brightness, index` (R126). -/
  | aEnc1 (pixel : Pixel) (brightness : Byte) (index : Nat)
  /-- `A.ENCALL brightness, M` (R127). -/
  | aEncAll (brightness : Byte) (count : Nat)
  /-- `A.TX` (R128). -/
  | aTx
  /-- `B.INIT` (R153). -/
  | bInit
  /-- `B.ENCRNG (r, g, b), start, end` (R154). -/
  | bEncRng (pixel : Pixel) (start : Nat) (stop : Nat)
  /-- `B.ENCALL (r, g, b)` (R155). -/
  | bEncAll (pixel : Pixel)
  /-- `B.TX` (R156). -/
  | bTx
deriving DecidableEq, Repr

/-- R2, R95: the opcode of a command names its encoder. -/
def Instr.side : Instr → Side
  | .aInit => .A
  | .aHdr _ => .A
  | .aEncPx _ _ => .A
  | .aEnc1 _ _ _ => .A
  | .aEncAll _ _ => .A
  | .aTx => .A
  | .bInit => .B
  | .bEncRng _ _ _ => .B
  | .bEncAll _ => .B
  | .bTx => .B

end Sys2Proof
end

