-- ==== Sys2Proof/WellFormed.lean ====
section
/-! DEFINITION. Which commands and which parameters are legal: operand ranges (spec/30_encoding.md rule R94) and
parameter ranges (spec/00_scope.md rule R12). -/

namespace Sys2Proof

/-- R12: `IDX_W` = 16, so an index or count operand lies in 0 .. 65535 (R94). -/
def indexFits (n : Nat) : Bool := n < 65536

/-- R94: every operand lies in the range of its field. Brightness and the three channels fit by their type. -/
def Instr.wf : Instr → Bool
  | .aInit => true
  | .aHdr _ => true
  | .aEncPx _ _ => true
  | .aEnc1 _ _ index => indexFits index
  | .aEncAll _ count => indexFits count
  | .aTx => true
  | .bInit => true
  | .bEncRng _ start stop => indexFits start && indexFits stop
  | .bEncAll _ => true
  | .bTx => true

/-- R12: `N_A`, `N_B` and `END_FRAME_BYTES` lie in 1 .. 65535. -/
def sizeLegal (n : Nat) : Bool := decide (1 ≤ n) && decide (n ≤ 65535)

/-- R12: the legal values of the OPEN parameters. -/
def Params.legal (p : Params) : Bool :=
  sizeLegal p.nA && sizeLegal p.nB && sizeLegal p.endFrameBytes && decide (1 ≤ p.clockAHz)

end Sys2Proof
end

