-- ==== Sys2Proof/Decode.lean ====
section
/-! DEFINITION. The opcode map of spec/30_encoding.md rule R95, the decoder (R94, R96, R97), total on every 64-bit word
and rejecting by name, and after it the encoder, the row of a table word, and the assembler spelling of R100. -/

namespace Sys2Proof

/-- R90: the fields of a command word. -/
def fieldOpcode (w : CmdWord) : Byte := w.extractLsb' 56 8
def fieldRed (w : CmdWord) : Byte := w.extractLsb' 48 8
def fieldGreen (w : CmdWord) : Byte := w.extractLsb' 40 8
def fieldBlue (w : CmdWord) : Byte := w.extractLsb' 32 8
def fieldHi (w : CmdWord) : BitVec 16 := w.extractLsb' 16 16
def fieldLo (w : CmdWord) : BitVec 16 := w.extractLsb' 0 16

/-- R94: `{red = word[55:48], green = word[47:40], blue = word[39:32]}`. -/
def operandPixel (w : CmdWord) : Pixel := ⟨fieldRed w, fieldGreen w, fieldBlue w⟩

/-- R92, R94: `brightness = word[23:16]`, unclamped. -/
def operandBrightness (w : CmdWord) : Byte := w.extractLsb' 16 8

/-- R94: `index`, `M` and `start` are `word[15:0]`, used as a natural number. -/
def operandLo (w : CmdWord) : Nat := (fieldLo w).toNat

/-- R94: `end` is `word[31:16]`, used as a natural number. -/
def operandHi (w : CmdWord) : Nat := (fieldHi w).toNat

/-- One row of R95: the word has the row's command when `w & mask = match`. -/
structure OpRow where
  mnemonic : String
  opcode : Byte
  mtch : CmdWord
  mask : CmdWord
  operands : CmdWord → Instr

/-- R95: "a word `w` selects the row when `w & mask = match`". -/
def OpRow.selects (r : OpRow) (w : CmdWord) : Bool := w &&& r.mask == r.mtch

/-- The opcode map R95, encoder A's rows. -/
def opcodeRowsA : List OpRow := [
  ⟨"A.INIT", 0x10, 0x1000000000000000, 0xFFFFFFFFFFFFFFFF, fun _ => .aInit⟩,
  ⟨"A.HDR", 0x11, 0x1100000000000000, 0xFFFFFFFFFF00FFFF, fun w => .aHdr (operandBrightness w)⟩,
  ⟨"A.ENCPX", 0x12, 0x1200000000000000, 0xFF000000FF00FFFF,
    fun w => .aEncPx (operandPixel w) (operandBrightness w)⟩,
  ⟨"A.ENC1", 0x13, 0x1300000000000000, 0xFF000000FF000000,
    fun w => .aEnc1 (operandPixel w) (operandBrightness w) (operandLo w)⟩,
  ⟨"A.ENCALL", 0x14, 0x1400000000000000, 0xFFFFFFFFFF000000,
    fun w => .aEncAll (operandBrightness w) (operandLo w)⟩,
  ⟨"A.TX", 0x15, 0x1500000000000000, 0xFFFFFFFFFFFFFFFF, fun _ => .aTx⟩]

/-- The opcode map R95, encoder B's rows. -/
def opcodeRowsB : List OpRow := [
  ⟨"B.INIT", 0x20, 0x2000000000000000, 0xFFFFFFFFFFFFFFFF, fun _ => .bInit⟩,
  ⟨"B.ENCRNG", 0x21, 0x2100000000000000, 0xFF00000000000000,
    fun w => .bEncRng (operandPixel w) (operandLo w) (operandHi w)⟩,
  ⟨"B.ENCALL", 0x22, 0x2200000000000000, 0xFF000000FFFFFFFF, fun w => .bEncAll (operandPixel w)⟩,
  ⟨"B.TX", 0x23, 0x2300000000000000, 0xFFFFFFFFFFFFFFFF, fun _ => .bTx⟩]

/-- R95: the ten rows. -/
def opcodeTable : List OpRow := opcodeRowsA ++ opcodeRowsB

/-- R97: the two ways a word is illegal. -/
inductive DecodeError where
  /-- The opcode is none of the ten. -/
  | reservedOpcode (opcode : Byte)
  /-- The opcode is one of the ten and a must-be-zero bit of its format is 1. -/
  | mustBeZeroBitSet (mnemonic : String)
deriving DecidableEq, Repr

/-- R97: which way a word that selects no row is illegal. -/
def whyIllegal (w : CmdWord) : DecodeError :=
  match opcodeTable.find? (fun r => r.opcode == fieldOpcode w) with
  | some r => .mustBeZeroBitSet r.mnemonic
  | none => .reservedOpcode (fieldOpcode w)

/-- R96: compare against the ten rows; the command is the matching row's with the operands of R94; a word that matches
none is illegal (R97). -/
def decode (w : CmdWord) : Except DecodeError Instr :=
  match opcodeTable.find? (fun r => r.selects w) with
  | some r => .ok (r.operands w)
  | none => .error (whyIllegal w)

/-- R90: a command word from its fields, the opcode in the most significant position. -/
def assemble (opcode red green blue : Byte) (hi lo : BitVec 16) : CmdWord :=
  opcode ++ red ++ green ++ blue ++ hi ++ lo

/-- R91: format Z, every bit below the opcode zero. -/
def formatZ (opcode : Byte) : CmdWord := assemble opcode 0 0 0 0 0

/-- R92: format P, bits [31:24] zero. -/
def formatP (opcode : Byte) (p : Pixel) (brightness : Byte) (index : Nat) : CmdWord :=
  assemble opcode p.red p.green p.blue ((0 : Byte) ++ brightness) (BitVec.ofNat 16 index)

/-- R93: format R, `end` above `start`. -/
def formatR (opcode : Byte) (p : Pixel) (start stop : Nat) : CmdWord :=
  assemble opcode p.red p.green p.blue (BitVec.ofNat 16 stop) (BitVec.ofNat 16 start)

/-- R106: the inverse of decoding, the command word of a well-formed command. A field a command does not use is zero
(R92, R93). -/
def encode : Instr → CmdWord
  | .aInit => formatZ 0x10
  | .aHdr brightness => formatP 0x11 ⟨0, 0, 0⟩ brightness 0
  | .aEncPx p brightness => formatP 0x12 p brightness 0
  | .aEnc1 p brightness index => formatP 0x13 p brightness index
  | .aEncAll brightness count => formatP 0x14 ⟨0, 0, 0⟩ brightness count
  | .aTx => formatZ 0x15
  | .bInit => formatZ 0x20
  | .bEncRng p start stop => formatR 0x21 p start stop
  | .bEncAll p => formatR 0x22 p 0 0
  | .bTx => formatZ 0x23

/-- The command word of a table word: its low `nbits` bits, every bit above them zero. A command word has 64 bits (R99),
so a longer table word stands for no command. -/
def tableCmdWord (nbits w : Nat) : CmdWord := BitVec.ofNat 64 (w % 2 ^ nbits)

/-- The command the decoder reads from a table word, if any. -/
def decodeTableWord (nbits w : Nat) : Option Instr :=
  if nbits ≤ 64 then
    match decode (tableCmdWord nbits w) with
    | .ok i => some i
    | .error _ => none
  else none

/-- R95: the mnemonic of a command. -/
def Instr.mnemonic : Instr → String
  | .aInit => "A.INIT"
  | .aHdr _ => "A.HDR"
  | .aEncPx _ _ => "A.ENCPX"
  | .aEnc1 _ _ _ => "A.ENC1"
  | .aEncAll _ _ => "A.ENCALL"
  | .aTx => "A.TX"
  | .bInit => "B.INIT"
  | .bEncRng _ _ _ => "B.ENCRNG"
  | .bEncAll _ => "B.ENCALL"
  | .bTx => "B.TX"

/-- R100: "a pixel is written `(r, g, b)` in that order, red first"; numbers in decimal, with
one space after each comma (DESIGN CHOICE among the spellings of R100, assumption log 24). -/
def pixelSyntax (p : Pixel) : String :=
  "(" ++ toString p.red.toNat ++ ", " ++ toString p.green.toNat ++ ", " ++ toString p.blue.toNat ++ ")"

/-- R100: the assembler syntax of a command, the mnemonic and then the operands separated by commas. -/
def Instr.assembler (i : Instr) : String :=
  match i with
  | .aInit => i.mnemonic
  | .aHdr b => i.mnemonic ++ " " ++ toString b.toNat
  | .aEncPx p b => i.mnemonic ++ " " ++ pixelSyntax p ++ ", " ++ toString b.toNat
  | .aEnc1 p b index =>
    i.mnemonic ++ " " ++ pixelSyntax p ++ ", " ++ toString b.toNat ++ ", " ++ toString index
  | .aEncAll b count => i.mnemonic ++ " " ++ toString b.toNat ++ ", " ++ toString count
  | .aTx => i.mnemonic
  | .bInit => i.mnemonic
  | .bEncRng p start stop =>
    i.mnemonic ++ " " ++ pixelSyntax p ++ ", " ++ toString start ++ ", " ++ toString stop
  | .bEncAll p => i.mnemonic ++ " " ++ pixelSyntax p
  | .bTx => i.mnemonic

end Sys2Proof
end

