-- ==== Sys2Proof/Machine/State.lean ====
section
/-! DEFINITION. Everything the spec gives the machine (spec/10_state.md), as plain data: the three memories, the two
encoders, the response, the parameters of the instance, and beside them the inputs still to come from the host and the
transports. -/

namespace Sys2Proof.Machine

/-- One of the three address spaces (R50). -/
inductive Space where
  | pixA
  | wireA
  | wireB
deriving DecidableEq, Repr

/-- R20 to R25: the contents of an address space, as the list of what has been stored: addresses strictly rising. An
address that is not listed holds what it held at reset, which the spec leaves free (R44, assumption log 3). -/
abbrev Memory (α : Type) := List (Nat × α)

/-- The canonical form of a memory: the listed addresses lie above `lo` in strictly rising order. -/
def Memory.risesFrom {α : Type} : Nat → List (Nat × α) → Bool
  | _, [] => true
  | lo, (a, _) :: rest => decide (lo ≤ a) && Memory.risesFrom (a + 1) rest

/-- A memory is in canonical form when its addresses strictly rise. -/
def Memory.wf {α : Type} (m : Memory α) : Bool := Memory.risesFrom 0 m

/-- R31: the states of an encoder's transmission sequencer. -/
inductive Seq where
  | idle
  | selecting
  | transmitting
  | deselecting
deriving DecidableEq, Repr

/-- R37: the level an encoder last drove on its chip-select output; `false` is selected, `true` deselected (R16). -/
inductive CsLevel where
  | undriven
  | driven (level : Bool)
deriving DecidableEq, Repr

/-- R16: the `Result` a transport write returns. -/
inductive WriteResult where
  | ok
  | err (t : TransportError)
deriving DecidableEq, Repr

/-- R34: a port event. -/
inductive PortEvent where
  | configure (clockHz : Nat) (mode : BusMode)
  | setLevel (level : Bool)
  | write (bytes : List Byte) (result : WriteResult)
deriving DecidableEq, Repr

/-- R38: a bus configuration. -/
structure BusCfg where
  clockHz : Nat
  mode : BusMode
deriving DecidableEq, Repr

/-- R105: the status a command ends with. -/
inductive Status where
  | ok
  | rangeError
  | transportError
  | notConfigured
  | illegalCommand
deriving DecidableEq, Repr

/-- R104: the response record. -/
structure Response where
  status : Status
  data : BitVec 32
  err : Option TransportError
deriving DecidableEq, Repr

/-- R180 to R183: the errors a command can raise. -/
inductive Exn where
  | rangeError
  | transportError (t : TransportError)
  | notConfigured
  | illegalCommand
deriving DecidableEq, Repr

/-- How a transmit leaves its write loop (R128, R156, R186, R71). -/
inductive TxEnd where
  | done
  | failed (t : TransportError)
  | hung
deriving DecidableEq, Repr

/-- The state of one encoder (R31 to R38) and of the transport behind its port. -/
structure Encoder where
  /-- `X.seq` (R31). -/
  seq : Seq
  /-- `X.phase` (R32). -/
  phase : Nat
  /-- `X.cfg` (R36). -/
  cfg : Bool
  /-- `X.cs` (R37). -/
  cs : CsLevel
  /-- `X.trace` (R34). -/
  trace : List PortEvent
  /-- `bus_cfg_X`, in the transport adapter (R38). -/
  busCfg : Option BusCfg
  /-- The model's own (log 4): the transport's coming replies, oldest first (R184). -/
  replies : List Reply
  /-- The model's own (log 4): how many replies have been drawn beyond that list. -/
  draws : Nat
  /-- The model's own (log 5): the bytes that reached the bus, with a failed write's drawn prefix (R188). -/
  onBus : List Byte
deriving DecidableEq, Repr

/-- R9, R100, R103: one action of the host, a command word or an access to a buffer between commands. -/
inductive HostAction where
  | command (w : CmdWord)
  | storePixA (k : Nat) (p : Pixel)
  | storeWireA (a : Nat) (v : Byte)
  | storeWireB (a : Nat) (v : Byte)
  | loadPixA (k : Nat)
  | loadWireA (a : Nat)
  | loadWireB (a : Nat)
deriving DecidableEq, Repr

/-- What a host load returns. -/
inductive HostData where
  | pixel (p : Pixel)
  | byte (v : Byte)
deriving DecidableEq, Repr

/-- The whole machine. -/
structure State where
  /-- R12, R39: the parameters of this instance; no command writes them. -/
  par : Params
  /-- Encoder A. -/
  a : Encoder
  /-- Encoder B. -/
  b : Encoder
  /-- `PIX_A` (R22). -/
  pixA : Memory Pixel
  /-- `WIRE_A` (R24). -/
  wireA : Memory Byte
  /-- `WIRE_B` (R25). -/
  wireB : Memory Byte
  /-- The response of the command that ended last; none at reset and while a command runs (R33, R43, R104). -/
  response : Option Response
  /-- The model's own (log 1): the host's coming actions, oldest first. -/
  host : List HostAction
  /-- The model's own (log 19): what the host's last load returned. -/
  loaded : Option HostData
deriving DecidableEq, Repr

/-- Why a step can stop. An error of the spec is no fault: it is a response (R192). -/
inductive Fault where
  /-- Raised by `seqStep` when the transport never answers the pending write: the encoder stays in `Transmitting` with
  no further step (R71, U13). Safe: the spec itself gives no step. -/
  | transportNeverAnswers
  /-- Raised by a host access to an address outside its space (R50: nothing else is addressable). Safe. -/
  | noSuchAddress (space : Space) (address : Nat)
  /-- Raised by `seqStep` in a sequencer state for which R129 and R157 list no step; no run reaches one. Safe. -/
  | noSequencerStep
deriving DecidableEq, Repr

/-- Why an instruction has no meaning. -/
inductive Refusal where
  /-- Raised by an arm of `exec` whose instruction has no meaning yet; no arm does. Safe. -/
  | notModelled (mnemonic : String)
deriving DecidableEq, Repr

/-- R43: an encoder at reset, and a transport whose replies are all free (log 4). -/
def Encoder.reset : Encoder where
  seq := .idle
  phase := 0
  cfg := false
  cs := .undriven
  trace := []
  busCfg := none
  replies := []
  draws := 0
  onBus := []

/-- R43, R220: reset of an instance with parameters `p`: both encoders at reset, no response, every memory cell free
(R44: nothing listed), and no host action listed (log 1). -/
def State.resetOf (p : Params) : State where
  par := p
  a := Encoder.reset
  b := Encoder.reset
  pixA := []
  wireA := []
  wireB := []
  response := none
  host := []
  loaded := none

/-- The machine right after reset, with the parameters log 2 names. -/
def State.reset : State := State.resetOf Config.resetParams

end Sys2Proof.Machine
end

