-- ==== Sys2Proof/Machine/Flags.lean ====
section
/-! DEFINITION. The block has no flags (spec/10_state.md rule R33); what stands for them is the response of a command
(spec/30_encoding.md rules R104, R105): the status codes, the response of each error, and the response data. -/

namespace Sys2Proof.Machine

/-- R105: the number of a status. -/
def Status.code : Status → Nat
  | .ok => 0
  | .rangeError => 1
  | .transportError => 2
  | .notConfigured => 3
  | .illegalCommand => 4

/-- R180 to R183: the status of an error. -/
def Exn.status : Exn → Status
  | .rangeError => .rangeError
  | .transportError _ => .transportError
  | .notConfigured => .notConfigured
  | .illegalCommand => .illegalCommand

/-- R104, R181: `err` is present exactly for a transport error and is then the transport's value, unchanged. -/
def Exn.err : Exn → Option TransportError
  | .rangeError => none
  | .transportError t => some t
  | .notConfigured => none
  | .illegalCommand => none

/-- R104: the response of an error; `data` is 0. -/
def Exn.response (e : Exn) : Response := ⟨e.status, 0, e.err⟩

/-- R104: the response of a command that ended well. -/
def okResponse (data : BitVec 32) : Response := ⟨.ok, data, none⟩

/-- R104: bytes as response data, the first byte most significant. -/
def packData (bytes : List Byte) : BitVec 32 :=
  bytes.foldl (fun acc v => (acc <<< 8) ||| v.setWidth 32) 0

end Sys2Proof.Machine
end

