-- ==== Sys2Proof/Machine/Operands.lean ====
section
/-! DEFINITION. The pure functions of the two protocols (spec/40_protocol_a.md R120 to R122, spec/41_protocol_b.md R150 to
R152), slot addresses (spec/20_memory.md R56, R62), and the decoder and bit order the spec uses only to state
properties (R89, R54). -/

namespace Sys2Proof.Machine

/-- R120: `clamp5(b) = min(b, 31)`. -/
def clamp5 (b : Byte) : Byte := if b.toNat ≤ 31 then b else 31

/-- R121: `hdrA(b) = 0xE0 | clamp5(b)`. -/
def hdrA (b : Byte) : Byte := 0xE0 ||| clamp5 b

/-- R122: `encA(p, b) = [hdrA(b), p.blue, p.green, p.red]`. -/
def encA (p : Pixel) (b : Byte) : List Byte := [hdrA b, p.blue, p.green, p.red]

/-- R24, R56: the address of slot `k` of `WIRE_A`, a natural number that never wraps (R131). -/
def slotAddrA (k : Nat) : Nat := 4 * k

/-- R25, R56: the address of slot `k` of `WIRE_B`, a natural number that never wraps (R161). -/
def slotAddrB (k : Nat) : Nat := 12 * k

/-- R150: `symB(1) = 0b1110`, `symB(0) = 0b1000`. -/
def symB (bit : Bool) : Symbol := if bit then 0b1110#4 else 0b1000#4

/-- R151: `wordB(p) = (p.green << 16) | (p.red << 8) | p.blue`. -/
def wordB (p : Pixel) : ColourWord :=
  (p.green.setWidth 24 <<< 16) ||| (p.red.setWidth 24 <<< 8) ||| p.blue.setWidth 24

/-- R152, R85: byte `j` of a slot, the symbol of bit `23 - 2j` above the symbol of bit `22 - 2j`. -/
def slotByteB (w : ColourWord) (j : Nat) : Byte :=
  ((symB (w.getLsbD (23 - 2 * j))).setWidth 8 <<< 4) ||| (symB (w.getLsbD (22 - 2 * j))).setWidth 8

/-- R152: `encB(p)`, the 12 bytes of a slot. -/
def encB (p : Pixel) : List Byte := (List.range 12).map (slotByteB (wordB p))

/-- R13, R24: `WIRE_A` has `4 * N_A` bytes. -/
def sizeWireA (p : Params) : Nat := 4 * p.nA

/-- R13, R25: `WIRE_B` has `12 * N_B` bytes. -/
def sizeWireB (p : Params) : Nat := 12 * p.nB

/-- R14: `rep(n, x)`. -/
def rep (n : Nat) (x : Byte) : List Byte := List.replicate n x

/-- R89: `decsym`, defined on `0xE` and `0x8` only (U6: no value is given on the other fourteen). The block has no
decoder; this serves only the round-trip property. -/
def decSym (y : Symbol) : Option Bool :=
  if y = 0xE#4 then some true else if y = 0x8#4 then some false else none

/-- R89: the two symbols of a byte, high nibble first. -/
def decByte (v : Byte) : Option (Bool × Bool) :=
  match decSym (v.extractLsb' 4 4), decSym (v.extractLsb' 0 4) with
  | some hi, some lo => some (hi, lo)
  | _, _ => none

/-- R89: the colour word whose bits, most significant first, are the decoded symbols of the bytes, pushed below `acc`. -/
def decBytes (acc : ColourWord) : List Byte → Option ColourWord
  | [] => some acc
  | v :: rest =>
    match decByte v with
    | some (hi, lo) => decBytes ((acc <<< 2) ||| (BitVec.ofBool hi ++ BitVec.ofBool lo).setWidth 24) rest
    | none => none

/-- R89: `decB(slot)`, for a slot of 12 bytes. -/
def decB (slot : List Byte) : Option ColourWord :=
  if slot.length = 12 then decBytes 0 slot else none

/-- R54: the bits of a byte in the order they leave on the bus, bit 7 first. -/
def byteBits (v : Byte) : List Bool :=
  [v.getLsbD 7, v.getLsbD 6, v.getLsbD 5, v.getLsbD 4, v.getLsbD 3, v.getLsbD 2, v.getLsbD 1, v.getLsbD 0]

/-- R53, R54: the bits of a byte sequence in the order they leave on the bus. -/
def busBits : List Byte → List Bool
  | [] => []
  | v :: rest => byteBits v ++ busBits rest

/-- R34: the bus byte stream of a trace, the bytes of its successful writes in trace order. -/
def busStream : List PortEvent → List Byte
  | [] => []
  | .write bytes .ok :: rest => bytes ++ busStream rest
  | .write _ (.err _) :: rest => busStream rest
  | .configure _ _ :: rest => busStream rest
  | .setLevel _ :: rest => busStream rest

end Sys2Proof.Machine
end

