-- ==== Sys2Proof/Machine/Ops.lean ====
section
/-! DEFINITION. The shared operations: memory (MemRead and MemWrite of spec/00_scope.md rule R15), the two ports
(`emit`, `write`, `set_level`, `configure`), and the two ways a command ends: `return OK` and `raise`, which is taking
an exception (spec/60_exceptions.md rule R192). -/

namespace Sys2Proof.Machine

/-- What has been stored at an address, if anything. -/
def Memory.find {α : Type} : List (Nat × α) → Nat → Option α
  | [], _ => none
  | (b, v) :: rest, a => if b = a then some v else Memory.find rest a

/-- R61: a read returns the last value stored; `init` is what the address held at reset (R44). -/
def Memory.read {α : Type} (init : Nat → α) (m : Memory α) (a : Nat) : α := (Memory.find m a).getD (init a)

/-- Stores one unit, keeping the addresses rising. -/
def Memory.set {α : Type} : List (Nat × α) → Nat → α → List (Nat × α)
  | [], a, v => [(a, v)]
  | (b, w) :: rest, a, v =>
    if a < b then (a, v) :: (b, w) :: rest
    else if a = b then (a, v) :: rest
    else (b, w) :: Memory.set rest a v

/-- R15: `MemWrite`, the first element of the sequence at the lowest address. -/
def Memory.writeSeq {α : Type} (m : Memory α) (a : Nat) : List α → Memory α
  | [] => m
  | v :: rest => Memory.writeSeq (Memory.set m a v) (a + 1) rest

/-- R15: `MemRead`, `n` consecutive units, lowest address first. -/
def Memory.readSeq {α : Type} (init : Nat → α) (m : Memory α) (a : Nat) : Nat → List α
  | 0 => []
  | n + 1 => Memory.read init m a :: Memory.readSeq init m (a + 1) n

/-- Reads pixel `k` of `PIX_A` (R22). -/
def State.readPixA (s : State) (k : Nat) : Pixel := Memory.read Config.initialPixA s.pixA k

/-- Reads byte `a` of `WIRE_A` (R24). -/
def State.readWireA (s : State) (a : Nat) : Byte := Memory.read Config.initialWireA s.wireA a

/-- Reads byte `a` of `WIRE_B` (R25). -/
def State.readWireB (s : State) (a : Nat) : Byte := Memory.read Config.initialWireB s.wireB a

/-- R128: the body of encoder A's transmit, all of `WIRE_A` as it stands. -/
def State.bodyA (s : State) : List Byte :=
  Memory.readSeq Config.initialWireA s.wireA 0 (sizeWireA s.par)

/-- R156: the body of encoder B's transmit, all of `WIRE_B` as it stands. -/
def State.bodyB (s : State) : List Byte :=
  Memory.readSeq Config.initialWireB s.wireB 0 (sizeWireB s.par)

/-- The encoder named by `x`. -/
def State.enc (s : State) : Side → Encoder
  | .A => s.a
  | .B => s.b

/-- The state with the encoder named by `x` replaced. -/
def State.setEnc (s : State) (x : Side) (e : Encoder) : State :=
  match x with
  | .A => { s with a := e }
  | .B => { s with b := e }

/-- R15: `emit(e)` appends a port event to the trace. -/
def Encoder.emit (e : Encoder) (ev : PortEvent) : Encoder := { e with trace := e.trace ++ [ev] }

/-- R35, R37, R128: `if HAS_CS_X then emit(SetLevel(level)); X.cs <- level`. -/
def Encoder.setLevel (hasCs : Bool) (level : Bool) (e : Encoder) : Encoder :=
  if hasCs then { e.emit (.setLevel level) with cs := .driven level } else e

/-- R123, R153: `emit(Configure(clock, mode))`, the transport's configuration, and `X.cfg`. -/
def Encoder.configure (clockHz : Nat) (mode : BusMode) (e : Encoder) : Encoder :=
  { e.emit (.configure clockHz mode) with busCfg := some ⟨clockHz, mode⟩, cfg := true }

/-- R184: the transport's reply to the next write, the next listed one or else a free value. -/
def Encoder.nextReply (x : Side) (e : Encoder) : Reply :=
  match e.replies with
  | r :: _ => r
  | [] => Config.transportReply x e.draws

/-- The transport once that reply is used. -/
def Encoder.dropReply (e : Encoder) : Encoder :=
  match e.replies with
  | _ :: rest => { e with replies := rest }
  | [] => { e with draws := e.draws + 1 }

/-- R15, R184, R188: one transport write transaction. The event records the whole sequence offered and the result; on
an error only a drawn prefix reaches the bus. No result if the transport never answers (R71). -/
def Encoder.write (x : Side) (bytes : List Byte) (e : Encoder) : Option (WriteResult × Encoder) :=
  match e.nextReply x with
  | .ok => some (.ok, { e.dropReply.emit (.write bytes .ok) with onBus := e.onBus ++ bytes })
  | .err t sent =>
    some (.err t, { e.dropReply.emit (.write bytes (.err t)) with onBus := e.onBus ++ bytes.take sent })
  | .never => none

/-- R15: `return OK(data)` ends the command. -/
def State.returnOk (data : BitVec 32) (s : State) : State := { s with response := some (okResponse data) }

/-- R15, R192: `raise` ends the command with an error. Nothing is saved and nothing else changes; control returns to the
host, which may issue any command (R193: there is no return from an error). -/
def State.raise (e : Exn) (s : State) : State := { s with response := some e.response }

/-- R126: `MemWrite(WIRE_A, 4 * k, 4, encA(p, b))`. -/
def State.storeSlotA (k : Nat) (p : Pixel) (b : Byte) (s : State) : State :=
  { s with wireA := Memory.writeSeq s.wireA (slotAddrA k) (encA p b) }

/-- R154: `MemWrite(WIRE_B, 12 * k, 12, encB(p))`. -/
def State.storeSlotB (k : Nat) (p : Pixel) (s : State) : State :=
  { s with wireB := Memory.writeSeq s.wireB (slotAddrB k) (encB p) }

end Sys2Proof.Machine
end

