-- ==== Sys2Proof/Machine/Transmit.lean ====
section
/-! DEFINITION. Transmission, in the two forms of the spec: the big-step form of `X.TX` (spec/40_protocol_a.md R128,
spec/41_protocol_b.md R156, spec/60_exceptions.md R186), and the small-step form (R129, R157). -/

namespace Sys2Proof.Machine

/-- R128, R156: the writes of one transmit, in order. -/
def State.frame (s : State) : Side → List (List Byte)
  | .A => [rep Config.startFrameBytes 0x00, s.bodyA, rep s.par.endFrameBytes 0xFF]
  | .B => [s.bodyB]

/-- R129 T0: the transmit has begun. -/
def Encoder.begin (e : Encoder) : Encoder := { e with seq := .selecting }

/-- R129 T1: assert chip-select and go on to the writes. -/
def Encoder.select (hasCs : Bool) (e : Encoder) : Encoder :=
  { e.setLevel hasCs false with seq := .transmitting, phase := 0 }

/-- R129 T2: one more write has completed. -/
def Encoder.countWrite (e : Encoder) : Encoder := { e with phase := e.phase + 1 }

/-- R129 T3: all writes are done. -/
def Encoder.writesDone (e : Encoder) : Encoder := { e with seq := .deselecting, phase := 0 }

/-- R129 T4: deassert chip-select, idle again. -/
def Encoder.deselect (hasCs : Bool) (e : Encoder) : Encoder := { e.setLevel hasCs true with seq := .idle }

/-- R186: `abort_transmit_X`, the sequencer and the chip-select line after a failed write. -/
def Encoder.abort (p : Params) (x : Side) (e : Encoder) : Encoder :=
  match p.csOnError with
  | .released => { ({ e with seq := .deselecting } : Encoder).setLevel (p.hasCs x) true with seq := .idle, phase := 0 }
  | .held => { e with seq := .idle, phase := 0 }

/-- R187: whether a failed transmit emits `SetLevel(true)`. -/
def releasesCs (p : Params) (x : Side) : Bool :=
  match p.csOnError with
  | .released => p.hasCs x
  | .held => false

/-- R128: the write loop and what follows it. -/
def Encoder.sendAll (p : Params) (x : Side) : List (List Byte) → Encoder → Encoder × TxEnd
  | [], e => (e.writesDone.deselect (p.hasCs x), .done)
  | bytes :: rest, e =>
    match e.write x bytes with
    | some (.ok, e') => Encoder.sendAll p x rest e'.countWrite
    | some (.err t, e') => (e'.abort p x, .failed t)
    | none => (e, .hung)

/-- How the command ends: OK, TRANSPORT_ERROR with the transport's value unchanged (R181), or, when the transport never
answers, not at all (R71). -/
def State.endTransmit (s : State) : TxEnd → State
  | .done => s.returnOk 0
  | .failed t => s.raise (.transportError t)
  | .hung => s

/-- R128, R156: `X.TX` in one piece. -/
def State.transmit (x : Side) (s : State) : State :=
  if (s.enc x).cfg then
    let r := Encoder.sendAll s.par x (s.frame x) ((s.enc x).begin.select (s.par.hasCs x))
    (s.setEnc x r.1).endTransmit r.2
  else s.raise .notConfigured

/-- R129, R157 T0 and T0': a transmit command is issued. -/
def startTransmit (x : Side) (s : State) : State :=
  if (s.enc x).cfg then s.setEnc x (s.enc x).begin else s.raise .notConfigured

/-- R129, R157 T2 and T2': one transport write, the next of the frame. -/
def seqWrite (x : Side) (bytes : List Byte) (s : State) : Host.Outcome State Fault Refusal :=
  match (s.enc x).write x bytes with
  | some (.ok, e') => .next (s.setEnc x e'.countWrite)
  | some (.err t, e') => .next ((s.setEnc x (e'.abort s.par x)).raise (.transportError t))
  | none => .fault .transportNeverAnswers

/-- R129, R157: one step of the sequencer of `x`, for an encoder that is not idle. -/
def seqStep (x : Side) (s : State) : Host.Outcome State Fault Refusal :=
  match (s.enc x).seq with
  | .idle => .fault .noSequencerStep
  | .selecting => .next (s.setEnc x ((s.enc x).select (s.par.hasCs x)))
  | .transmitting =>
    match (s.frame x)[(s.enc x).phase]? with
    | some bytes => seqWrite x bytes s
    | none =>
      if (s.enc x).phase = (s.frame x).length then .next (s.setEnc x (s.enc x).writesDone)
      else .fault .noSequencerStep
  | .deselecting => .next ((s.setEnc x ((s.enc x).deselect (s.par.hasCs x))).returnOk 0)

/-- `n` steps of the sequencer of `x`, stopping where it is idle. -/
def seqRun (x : Side) : Nat → State → Host.Outcome State Fault Refusal
  | 0, s => .next s
  | n + 1, s =>
    if (s.enc x).seq = .idle then .next s
    else
      match seqStep x s with
      | .next t => seqRun x n t
      | .fault f => .fault f
      | .refused r => .refused r

end Sys2Proof.Machine
end

