-- ==== Sys2Proof/Machine/EncoderA.lean ====
section
/-! DEFINITION. The meanings of encoder A's commands (spec/40_protocol_a.md section 2). -/

namespace Sys2Proof.Machine

/-- R123: `A.INIT`. -/
def execAInit (s : State) : Host.Outcome State Fault Refusal :=
  .next ((s.setEnc .A (s.a.configure s.par.clockAHz Config.modeA)).returnOk 0)

/-- R124: `A.HDR brightness`. -/
def execAHdr (brightness : Byte) (s : State) : Host.Outcome State Fault Refusal :=
  .next (s.returnOk ((hdrA brightness).setWidth 32))

/-- R125: `A.ENCPX (r, g, b), brightness`. -/
def execAEncPx (pixel : Pixel) (brightness : Byte) (s : State) : Host.Outcome State Fault Refusal :=
  .next (s.returnOk (packData (encA pixel brightness)))

/-- R126: `A.ENC1 (r, g, b), brightness, index`; an index outside the pixel count is a silent no-op. -/
def execAEnc1 (pixel : Pixel) (brightness : Byte) (index : Nat) (s : State) : Host.Outcome State Fault Refusal :=
  if index < s.par.nA then .next ((s.storeSlotA index pixel brightness).returnOk 0) else .next (s.returnOk 0)

/-- R127: the loop of `A.ENCALL`, slots 0 to `n - 1` in ascending order. -/
def State.encodeLeading (brightness : Byte) : Nat → State → State
  | 0, s => s
  | n + 1, s =>
    let t := State.encodeLeading brightness n s
    t.storeSlotA n (t.readPixA n) brightness

/-- R127: `A.ENCALL brightness, M`; a count above `N_A` is clipped. -/
def execAEncAll (brightness : Byte) (count : Nat) (s : State) : Host.Outcome State Fault Refusal :=
  .next ((s.encodeLeading brightness (min count s.par.nA)).returnOk 0)

/-- R128: `A.TX`. -/
def execATx (s : State) : Host.Outcome State Fault Refusal := .next (s.transmit .A)

end Sys2Proof.Machine
end

