-- ==== Sys2Proof/Machine/EncoderB.lean ====
section
/-! DEFINITION. The meanings of encoder B's commands (spec/41_protocol_b.md section 2). -/

namespace Sys2Proof.Machine

/-- R153: `B.INIT`. -/
def execBInit (s : State) : Host.Outcome State Fault Refusal :=
  .next ((s.setEnc .B (s.b.configure Config.clockBHz s.par.modeB)).returnOk 0)

/-- R154: the loop of `B.ENCRNG`, the `n` slots from `start` on in ascending order. -/
def State.fillSlots (pixel : Pixel) (start : Nat) : Nat → State → State
  | 0, s => s
  | n + 1, s => (State.fillSlots pixel start n s).storeSlotB (start + n) pixel

/-- R154: the range check, made before any byte is written, and the loop over `start .. stop`. -/
def State.encodeRange (pixel : Pixel) (start stop : Nat) (s : State) : State :=
  if start > stop ∨ stop ≥ s.par.nB then s.raise .rangeError
  else (s.fillSlots pixel start (stop + 1 - start)).returnOk 0

/-- R154: `B.ENCRNG (r, g, b), start, end`. -/
def execBEncRng (pixel : Pixel) (start stop : Nat) (s : State) : Host.Outcome State Fault Refusal :=
  .next (s.encodeRange pixel start stop)

/-- R155: `B.ENCALL (r, g, b)` performs `B.ENCRNG p, 0, N_B - 1`. -/
def execBEncAll (pixel : Pixel) (s : State) : Host.Outcome State Fault Refusal :=
  .next (s.encodeRange pixel 0 (s.par.nB - 1))

/-- R156: `B.TX`. -/
def execBTx (s : State) : Host.Outcome State Fault Refusal := .next (s.transmit .B)

end Sys2Proof.Machine
end

