-- ==== Sys2Proof/Machine/Dispatch.lean ====
section
/-! DEFINITION. One arm per command: its meaning. -/

namespace Sys2Proof.Machine

-- The ten rows of spec/30_encoding.md rule R95, in the table's order.
def exec (i : Instr) (s : State) : Host.Outcome State Fault Refusal :=
  match i with
  | .aInit => Sys2Proof.Machine.execAInit s
  | .aHdr brightness => Sys2Proof.Machine.execAHdr brightness s
  | .aEncPx pixel brightness => Sys2Proof.Machine.execAEncPx pixel brightness s
  | .aEnc1 pixel brightness index => Sys2Proof.Machine.execAEnc1 pixel brightness index s
  | .aEncAll brightness count => Sys2Proof.Machine.execAEncAll brightness count s
  | .aTx => Sys2Proof.Machine.execATx s
  | .bInit => Sys2Proof.Machine.execBInit s
  | .bEncRng pixel start stop => Sys2Proof.Machine.execBEncRng pixel start stop s
  | .bEncAll pixel => Sys2Proof.Machine.execBEncAll pixel s
  | .bTx => Sys2Proof.Machine.execBTx s

end Sys2Proof.Machine
end

