-- ==== Sys2Proof/Machine/HostPort.lean ====
section
/-! DEFINITION. The host's side of the block (spec/30_encoding.md rules R97, R100, R103; spec/10_state.md rules R22, R24,
R25): a command word is decoded and run, a buffer access is performed, between commands only. -/

namespace Sys2Proof.Machine

/-- R103: the host's next action is taken; the rest remain. -/
def State.withHost (rest : List HostAction) (s : State) : State := { s with host := rest }

/-- R103, R104: a command is issued: its action is taken and no response stands until it ends. -/
def State.issue (rest : List HostAction) (s : State) : State := { s with host := rest, response := none }

/-- R96, R97, R183: a word is decoded and its command run; an illegal word is refused with ILLEGAL_COMMAND. -/
def runWord (w : CmdWord) (s : State) : Host.Outcome State Fault Refusal :=
  match decode w with
  | .ok i => exec i s
  | .error _ => .next (s.raise .illegalCommand)

/-- R50: an access of the host inside its space goes through, any other has no such address. -/
def guardAddress (space : Space) (a size : Nat) (t : State) : Host.Outcome State Fault Refusal :=
  if a < size then .next t else .fault (.noSuchAddress space a)

/-- R100, R103: the host's next action. With none, the block is idle and keeps all state (R205). -/
def hostStep (s : State) : Host.Outcome State Fault Refusal :=
  match s.host with
  | [] => .next s
  | .command w :: rest => runWord w (s.issue rest)
  | .storePixA k p :: rest =>
    guardAddress .pixA k s.par.nA { s.withHost rest with pixA := Memory.set s.pixA k p }
  | .storeWireA a v :: rest =>
    guardAddress .wireA a (sizeWireA s.par) { s.withHost rest with wireA := Memory.set s.wireA a v }
  | .storeWireB a v :: rest =>
    guardAddress .wireB a (sizeWireB s.par) { s.withHost rest with wireB := Memory.set s.wireB a v }
  | .loadPixA k :: rest =>
    guardAddress .pixA k s.par.nA { s.withHost rest with loaded := some (.pixel (s.readPixA k)) }
  | .loadWireA a :: rest =>
    guardAddress .wireA a (sizeWireA s.par) { s.withHost rest with loaded := some (.byte (s.readWireA a)) }
  | .loadWireB a :: rest =>
    guardAddress .wireB a (sizeWireB s.par) { s.withHost rest with loaded := some (.byte (s.readWireB a)) }

/-- The encoder with no transmit under way (R31, R32). -/
def Encoder.stop (e : Encoder) : Encoder :=
  match e.seq with
  | .idle => e
  | .selecting => { e with seq := .idle, phase := 0 }
  | .transmitting => { e with seq := .idle, phase := 0 }
  | .deselecting => { e with seq := .idle, phase := 0 }

/-- The state in which the host presents the word `w` next, before whatever else it has to do: the word heads its
actions, and no transmit is under way (R103: a word can be presented only then). -/
def State.presentWord (s : State) (w : CmdWord) : State :=
  { s with host := .command w :: s.host, a := s.a.stop, b := s.b.stop }

end Sys2Proof.Machine
end

