-- ==== Sys2Proof/Machine/Step.lean ====
section
/-! DEFINITION. One step of the machine: an encoder that is transmitting goes on (spec/40_protocol_a.md R129,
spec/41_protocol_b.md R157), and otherwise the host's next action is taken (spec/30_encoding.md R103). -/

namespace Sys2Proof.Machine

/-- R64, R103: the host is blocked while a command runs, so an encoder that is not idle comes first. No run has both
encoders busy (R203); of two, A goes first (log 12). -/
def step (s : State) : Host.Outcome State Fault Refusal :=
  if s.a.seq ≠ .idle then seqStep .A s
  else if s.b.seq ≠ .idle then seqStep .B s
  else hostStep s

/-- The table word `w` of `nbits` bits presented as the host's next command. -/
def State.withFetchWord (s : State) (nbits w : Nat) : State := s.presentWord (tableCmdWord nbits w)

end Sys2Proof.Machine
end

