-- ==== Sys2Proof/Machine/Pseudo.lean ====
section
/-! DEFINITION. The pseudo-instructions (spec/30_encoding.md rules R101, R102): expansions the host makes, without command
words of their own, and running the commands of an expansion in order. -/

namespace Sys2Proof.Machine

/-- R101, R102: the four pseudo-instructions. -/
inductive Pseudo where
  | aUpdate (brightness : Byte) (count : Nat)
  | bEnc1 (pixel : Pixel) (index : Nat)
  | bEncBuf (pixels : List Pixel)
  | bUpdate (pixel : Pixel)
deriving DecidableEq, Repr

/-- R102: `B.ENC1 p[k], k` for each pixel of a list, the first at index `k`. -/
def expandPixels : Nat → List Pixel → List Instr
  | _, [] => []
  | k, p :: rest => .bEncRng p k k :: expandPixels (k + 1) rest

/-- R101, R102: the commands a pseudo-instruction expands to. R102 gives the expansion of `B.ENCBUF` for a list of at most
`N_B` pixels only; that a longer list expands in the same way, so that the commands past the buffer end in RANGE_ERROR,
is the model's choice (DESIGN CHOICE, assumption log 23). -/
def Pseudo.expand : Pseudo → List Instr
  | .aUpdate brightness count => [.aEncAll brightness count, .aTx]
  | .bEnc1 pixel index => [.bEncRng pixel index index]
  | .bEncBuf pixels => expandPixels 0 pixels
  | .bUpdate pixel => [.bEncAll pixel, .bTx]

/-- The commands of a list run one after another, whatever each responds: "the block does not chain them" (R101), so a
host that stops at an error runs a shorter list. -/
def runCommands : List Instr → State → Host.Outcome State Fault Refusal
  | [], s => .next s
  | i :: rest, s =>
    match exec i s with
    | .next t => runCommands rest t
    | .fault f => .fault f
    | .refused r => .refused r

end Sys2Proof.Machine
end

