-- ==== Sys2Proof/Machine/Assembler.lean ====
section
/-! DEFINITION. The assembler syntax of spec/30_encoding.md rule R100, read: one line gives the host's actions it stands for,
commands as their words (R106), a pseudo-instruction as the commands it expands to (R101, R102), a host access as itself.
R100 says nothing of how tokens are separated or of letter case: what the reader does there is the model's choice
(DESIGN CHOICE, assumption log 24). -/

namespace Sys2Proof.Machine

/-- The tokens of a line. -/
inductive Token where
  | word (letters : List Char)
  | openPixel
  | closePixel
  | comma
  | openIndex
  | closeIndex
  | becomes
deriving DecidableEq, Repr

/-- The word read so far, if any; its letters stand in reverse. A word `:=` is a token of its own, so between it and a
number there must be a space (DESIGN CHOICE, assumption log 24). -/
def flushWord (reversed : List Char) : List Token :=
  match reversed with
  | [] => []
  | ['=', ':'] => [.becomes]
  | _ => [.word reversed.reverse]

/-- The token of a punctuation mark. -/
def punctuation (c : Char) : Option Token :=
  if c = '(' then some .openPixel
  else if c = ')' then some .closePixel
  else if c = ',' then some .comma
  else if c = '[' then some .openIndex
  else if c = ']' then some .closeIndex
  else none

/-- R100: the tokens of a line; `;` starts a comment. That the space character alone separates words, a tab being a letter
like any other, and that a space is needed nowhere beside a punctuation mark, is the model's choice (DESIGN CHOICE,
assumption log 24). -/
def tokenize (reversed : List Char) : List Char → List Token
  | [] => flushWord reversed
  | c :: rest =>
    if c = ';' then flushWord reversed
    else if c = ' ' then flushWord reversed ++ tokenize [] rest
    else
      match punctuation c with
      | some t => flushWord reversed ++ t :: tokenize [] rest
      | none => tokenize (c :: reversed) rest

/-- The value of a digit, in bases up to 16; a hexadecimal letter may be of either case (DESIGN CHOICE, assumption
log 24). -/
def digitValue (c : Char) : Option Nat :=
  if '0' ≤ c ∧ c ≤ '9' then some (c.toNat - '0'.toNat)
  else if 'a' ≤ c ∧ c ≤ 'f' then some (c.toNat - 'a'.toNat + 10)
  else if 'A' ≤ c ∧ c ≤ 'F' then some (c.toNat - 'A'.toNat + 10)
  else none

/-- The value of a digit string in a base, below what stands in `acc`. -/
def readDigits (base : Nat) (acc : Nat) : List Char → Option Nat
  | [] => some acc
  | c :: rest =>
    match digitValue c with
    | some d => if d < base then readDigits base (base * acc + d) rest else none
    | none => none

/-- R100: "numbers are decimal or `0x` hexadecimal". That `0X` is no prefix, and that leading zeros are allowed, is the
model's choice (DESIGN CHOICE, assumption log 24). -/
def readNumber : List Char → Option Nat
  | [] => none
  | ['0', 'x'] => none
  | '0' :: 'x' :: digits => readDigits 16 0 digits
  | digits => readDigits 10 0 digits

/-- A number that fits a byte: a channel or a brightness (R94). -/
def readByte (letters : List Char) : Option Byte :=
  match readNumber letters with
  | some n => if n < 256 then some (BitVec.ofNat 8 n) else none
  | none => none

/-- R100: "a pixel is written `(r, g, b)` in that order, red first". -/
def readPixel (r g b : List Char) : Option Pixel :=
  match readByte r, readByte g, readByte b with
  | some red, some green, some blue => some ⟨red, green, blue⟩
  | _, _, _ => none

/-- The words of the commands of a list, if all are well-formed (R94, R106). -/
def commandWords (is : List Instr) : Option (List HostAction) :=
  if is.all Instr.wf then some (is.map (fun i => .command (encode i))) else none

/-- A line without operands. Here and below a mnemonic or a memory is read in the letter case of R100 only (DESIGN CHOICE,
assumption log 24). -/
def assembleBare (m : List Char) : Option (List HostAction) :=
  if m = "A.INIT".toList then commandWords [.aInit]
  else if m = "A.TX".toList then commandWords [.aTx]
  else if m = "B.INIT".toList then commandWords [.bInit]
  else if m = "B.TX".toList then commandWords [.bTx]
  else none

/-- A line with a pixel only. -/
def assemblePixel (m : List Char) (p : Pixel) : Option (List HostAction) :=
  if m = "B.ENCALL".toList then commandWords [.bEncAll p]
  else if m = "B.UPDATE".toList then commandWords (Pseudo.expand (.bUpdate p))
  else none

/-- A line with a brightness and a count. -/
def assembleCount (m : List Char) (b : Byte) (n : Nat) : Option (List HostAction) :=
  if m = "A.ENCALL".toList then commandWords [.aEncAll b n]
  else if m = "A.UPDATE".toList then commandWords (Pseudo.expand (.aUpdate b n))
  else none

/-- A line with a pixel and one number: a brightness, or an index. -/
def assemblePixelNumber (m : List Char) (p : Pixel) (x : List Char) : Option (List HostAction) :=
  if m = "A.ENCPX".toList then
    match readByte x with
    | some b => commandWords [.aEncPx p b]
    | none => none
  else if m = "B.ENC1".toList then
    match readNumber x with
    | some k => commandWords (Pseudo.expand (.bEnc1 p k))
    | none => none
  else none

/-- A line with a pixel and two numbers. -/
def assemblePixelTwo (m : List Char) (p : Pixel) (x y : List Char) : Option (List HostAction) :=
  if m = "A.ENC1".toList then
    match readByte x, readNumber y with
    | some b, some k => commandWords [.aEnc1 p b k]
    | _, _ => none
  else if m = "B.ENCRNG".toList then
    match readNumber x, readNumber y with
    | some start, some stop => commandWords [.bEncRng p start stop]
    | _, _ => none
  else none

/-- A host store of one byte. -/
def assembleByteStore (m a v : List Char) : Option (List HostAction) :=
  match readNumber a, readByte v with
  | some a, some v =>
    if m = "WIRE_A".toList then some [.storeWireA a v]
    else if m = "WIRE_B".toList then some [.storeWireB a v]
    else none
  | _, _ => none

/-- A host store of one pixel. -/
def assemblePixelStore (m k : List Char) (p : Pixel) : Option (List HostAction) :=
  match readNumber k with
  | some k => if m = "PIX_A".toList then some [.storePixA k p] else none
  | none => none

/-- R100: what the tokens of one line stand for; an empty line, or a comment alone, for nothing to do
(DESIGN CHOICE, assumption log 24). -/
def assembleTokens : List Token → Option (List HostAction)
  | [] => some []
  | [.word m] => assembleBare m
  | [.word m, .word b] =>
    if m = "A.HDR".toList then
      match readByte b with
      | some b => commandWords [.aHdr b]
      | none => none
    else none
  | [.word m, .word b, .comma, .word n] =>
    match readByte b, readNumber n with
    | some b, some n => assembleCount m b n
    | _, _ => none
  | [.word m, .openPixel, .word r, .comma, .word g, .comma, .word b, .closePixel] =>
    match readPixel r g b with
    | some p => assemblePixel m p
    | none => none
  | [.word m, .openPixel, .word r, .comma, .word g, .comma, .word b, .closePixel, .comma, .word x] =>
    match readPixel r g b with
    | some p => assemblePixelNumber m p x
    | none => none
  | [.word m, .openPixel, .word r, .comma, .word g, .comma, .word b, .closePixel, .comma, .word x, .comma, .word y] =>
    match readPixel r g b with
    | some p => assemblePixelTwo m p x y
    | none => none
  | [.word m, .openIndex, .word a, .closeIndex, .becomes, .word v] => assembleByteStore m a v
  | [.word m, .openIndex, .word k, .closeIndex, .becomes, .openPixel, .word r, .comma, .word g, .comma, .word b,
      .closePixel] =>
    match readPixel r g b with
    | some p => assemblePixelStore m k p
    | none => none
  | _ => none

/-- R100: the actions one line of assembler gives the host, none if the line is not of the syntax. -/
def assembleLine (line : List Char) : Option (List HostAction) := assembleTokens (tokenize [] line)

end Sys2Proof.Machine
end

