-- ==== Sys2Proof/Safety.lean ====
section
/-! DEFINITION. What counts as a sound state and a safe run, in the terms the claims use: the level and the configuration
a trace records, the invariant of the machine, and what it is for a step to go on. -/

namespace Sys2Proof.Machine

/-- R37: the level the last `SetLevel` event of a trace drove, `undriven` if there is none. -/
def lastLevel (trace : List PortEvent) : CsLevel :=
  trace.foldl (fun c ev =>
    match ev with
    | .setLevel level => .driven level
    | .configure _ _ => c
    | .write _ _ => c) .undriven

/-- R38: the arguments of the last `Configure` event of a trace, none if there is none. -/
def lastConfigure (trace : List PortEvent) : Option BusCfg :=
  trace.foldl (fun c ev =>
    match ev with
    | .configure hz mode => some ⟨hz, mode⟩
    | .setLevel _ => c
    | .write _ _ => c) none

/-- R32: how many writes a transmit of `x` makes, the largest value of `X.phase`. -/
def frameWrites : Side → Nat
  | .A => 3
  | .B => 1

/-- What holds of one encoder in every run. -/
structure Encoder.Inv (p : Params) (x : Side) (e : Encoder) : Prop where
  /-- R32: `X.phase` is 0 in every sequencer state but `Transmitting`. -/
  phaseZero : e.seq ≠ .transmitting → e.phase = 0
  /-- R32: `X.phase` counts no more writes than the transmit has. -/
  phaseBound : e.phase ≤ frameWrites x
  /-- R37: `X.cs` is the level driven last. -/
  csIsLast : e.cs = lastLevel e.trace
  /-- R35: with no chip-select wired there is no `SetLevel` event. -/
  noSetLevel : p.hasCs x = false → ∀ level, PortEvent.setLevel level ∉ e.trace
  /-- R38: `bus_cfg_X` holds the arguments of the last `Configure` event. -/
  busCfgIsLast : e.busCfg = lastConfigure e.trace
  /-- R36: `X.cfg` is true exactly once an INIT has configured the transport. -/
  cfgIff : e.cfg = e.busCfg.isSome
  /-- R182: no transmit gets under way before INIT. -/
  busyConfigured : e.seq ≠ .idle → e.cfg = true
  /-- R129: chip-select is asserted while the writes are issued and until it is deasserted. -/
  selected : e.seq = .transmitting ∨ e.seq = .deselecting → p.hasCs x = true → e.cs = .driven false
  /-- R187: with `CS_ON_ERROR = released` the line is not left asserted between transmits. -/
  released : p.csOnError = .released → e.seq = .idle ∨ e.seq = .selecting → e.cs ≠ .driven false

/-- What holds of the machine in every run. -/
structure State.Inv (s : State) : Prop where
  /-- R12: the parameters are legal. -/
  parLegal : s.par.legal = true
  /-- The three memories are in canonical form. -/
  pixAwf : Memory.wf s.pixA = true
  wireAwf : Memory.wf s.wireA = true
  wireBwf : Memory.wf s.wireB = true
  /-- R57: nothing has been stored outside an address space. -/
  pixAInside : ∀ c ∈ s.pixA, c.1 < s.par.nA
  wireAInside : ∀ c ∈ s.wireA, c.1 < sizeWireA s.par
  wireBInside : ∀ c ∈ s.wireB, c.1 < sizeWireB s.par
  /-- The two encoders. -/
  encA : s.a.Inv s.par .A
  encB : s.b.Inv s.par .B
  /-- R203: the two encoders never run at the same time. -/
  oneBusy : s.a.seq = .idle ∨ s.b.seq = .idle
  /-- R104: no response stands while a command runs. -/
  noResponseYet : s.a.seq ≠ .idle ∨ s.b.seq ≠ .idle → s.response = none
  /-- R104: `err` is present exactly when the status is TRANSPORT_ERROR. -/
  responseErr : ∀ r, s.response = some r → (r.err.isSome = true ↔ r.status = .transportError)
  /-- R104: `data` is 0 whenever the status is not OK. -/
  responseData : ∀ r, s.response = some r → r.status ≠ .ok → r.data = 0

/-- The machine goes on: a step or a command answers a next state. -/
def GoesOn (o : Host.Outcome State Fault Refusal) : Prop := ∃ t, o = .next t

/-- R31, R103: no transmit is under way, so the host may act. -/
def State.atRest (s : State) : Prop := s.a.seq = .idle ∧ s.b.seq = .idle

/-- R71, U13: the encoder of `x` waits on a write the transport never answers. -/
def State.stuckOn (x : Side) (s : State) : Prop :=
  (s.enc x).seq = .transmitting ∧ (s.enc x).phase < frameWrites x ∧ (s.enc x).nextReply x = .never

/-- R50: the address the host's next action names, with its space and the size of the space, if it names one. -/
def HostAction.target (p : Params) : HostAction → Option (Space × Nat × Nat)
  | .command _ => none
  | .storePixA k _ => some (.pixA, k, p.nA)
  | .storeWireA a _ => some (.wireA, a, sizeWireA p)
  | .storeWireB a _ => some (.wireB, a, sizeWireB p)
  | .loadPixA k => some (.pixA, k, p.nA)
  | .loadWireA a => some (.wireA, a, sizeWireA p)
  | .loadWireB a => some (.wireB, a, sizeWireB p)

/-- R50: the host's next action lies outside its space. -/
def State.hostAstray (s : State) : Prop :=
  ∃ act rest space a size, s.host = act :: rest ∧ act.target s.par = some (space, a, size) ∧ size ≤ a

/-- The transmit command of an encoder. -/
def txCommand : Side → Instr
  | .A => .aTx
  | .B => .bTx

/-- The encoder once its transport has replied `n` times. -/
def Encoder.afterReplies : Nat → Encoder → Encoder
  | 0, e => e
  | n + 1, e => Encoder.afterReplies n e.dropReply

/-- R184: what the transport of `x` does with the write numbered `n` of the coming ones, from 0. -/
def Encoder.replyAt (x : Side) (e : Encoder) (n : Nat) : Reply := (e.afterReplies n).nextReply x

/-! R12, R181: the machine with every transport error in it replaced by its image under `f`. -/

/-- A write result with its error replaced. -/
def WriteResult.relabel (f : TransportError → TransportError) : WriteResult → WriteResult
  | .ok => .ok
  | .err t => .err (f t)

/-- A port event with its error replaced. -/
def PortEvent.relabel (f : TransportError → TransportError) : PortEvent → PortEvent
  | .configure hz mode => .configure hz mode
  | .setLevel level => .setLevel level
  | .write bytes r => .write bytes (r.relabel f)

/-- A reply of the transport with its error replaced. -/
def relabelReply (f : TransportError → TransportError) : Reply → Reply
  | .ok => .ok
  | .err t sent => .err (f t) sent
  | .never => .never

/-- A response with its error replaced. -/
def Response.relabel (f : TransportError → TransportError) (r : Response) : Response := { r with err := r.err.map f }

/-- An encoder and its transport with the errors replaced, in the trace and in the listed replies. -/
def Encoder.relabel (f : TransportError → TransportError) (e : Encoder) : Encoder :=
  { e with trace := e.trace.map (PortEvent.relabel f), replies := e.replies.map (relabelReply f) }

/-- The whole machine with the errors replaced. -/
def State.relabel (f : TransportError → TransportError) (s : State) : State :=
  { s with a := s.a.relabel f, b := s.b.relabel f, response := s.response.map (Response.relabel f) }

/-- The transports of the relabelled machine answer the writes of one transmit as those of `s` do, with the errors
replaced. It is so whenever `s` lists those answers. -/
def State.answersRelabelled (f : TransportError → TransportError) (s : State) : Prop :=
  ∀ x k, k < 3 → ((s.relabel f).enc x).replyAt x k = relabelReply f ((s.enc x).replyAt x k)

/-- R152: the byte that stands for two bits of a colour channel, the first one in the high nibble. -/
def pairByte (first second : Bool) : Byte :=
  match first, second with
  | false, false => 0x88
  | false, true => 0x8E
  | true, false => 0xE8
  | true, true => 0xEE

/-- R152: the four bytes a colour channel expands to. -/
def channelBytes (c : Byte) : List Byte :=
  [pairByte (c.getLsbD 7) (c.getLsbD 6), pairByte (c.getLsbD 5) (c.getLsbD 4),
    pairByte (c.getLsbD 3) (c.getLsbD 2), pairByte (c.getLsbD 1) (c.getLsbD 0)]

/-- R85: the four bytes an encoded slot of `WIRE_B` is made of. -/
def LegalByteB (v : Byte) : Prop := v = 0x88 ∨ v = 0x8E ∨ v = 0xE8 ∨ v = 0xEE

end Sys2Proof.Machine

namespace Sys2Proof

/-- R97, with the must-be-zero bits of R91 to R93: a word is illegal when its opcode is none of the ten, or when its
opcode is one of the ten and a must-be-zero bit of its format is 1. -/
def IllegalWord (w : CmdWord) : Prop :=
  let opcode := w.extractLsb' 56 8
  if opcode = 0x10 ∨ opcode = 0x15 ∨ opcode = 0x20 ∨ opcode = 0x23 then w.extractLsb' 0 56 ≠ 0
  else if opcode = 0x11 then w.extractLsb' 24 32 ≠ 0 ∨ w.extractLsb' 0 16 ≠ 0
  else if opcode = 0x12 then w.extractLsb' 24 8 ≠ 0 ∨ w.extractLsb' 0 16 ≠ 0
  else if opcode = 0x13 then w.extractLsb' 24 8 ≠ 0
  else if opcode = 0x14 then w.extractLsb' 24 32 ≠ 0
  else if opcode = 0x21 then False
  else if opcode = 0x22 then w.extractLsb' 0 32 ≠ 0
  else True

end Sys2Proof
end

