-- ==== Sys2Proof/Certificates/Slice0/Obligations.lean ====
section
/-! DEFINITION. The statements for the provers, each from the numbered rules of spec/. A statement about every state holds
for every value of the OPEN parameters and every content of the memories, which are part of the state (log 2, log 3). -/

open Sys2Proof Sys2Proof.Machine

/-! ### Encoding -/

/-- R106: "decode after encode is the identity". -/
def Obligations.DecodeAfterEncodeIsIdentity : Prop :=
  ∀ i : Instr, i.wf = true → decode (encode i) = .ok i

/-- R94, R95: every word that decodes has in-range operands and is the one word of its command: no bit of it is dropped. -/
def Obligations.EncodeAfterDecodeIsIdentity : Prop :=
  ∀ (w : CmdWord) (i : Instr), decode w = .ok i → i.wf = true ∧ encode i = w

/-- R95, R94: the ten rows, what selecting a row means, and the operands each row reads. -/
def Obligations.OpcodeMapIsTheSpecsTable : Prop :=
  opcodeTable.map (fun r => (r.mnemonic, r.opcode, r.mtch, r.mask)) =
    [("A.INIT", 0x10, 0x1000000000000000, 0xFFFFFFFFFFFFFFFF), ("A.HDR", 0x11, 0x1100000000000000, 0xFFFFFFFFFF00FFFF),
     ("A.ENCPX", 0x12, 0x1200000000000000, 0xFF000000FF00FFFF), ("A.ENC1", 0x13, 0x1300000000000000, 0xFF000000FF000000),
     ("A.ENCALL", 0x14, 0x1400000000000000, 0xFFFFFFFFFF000000), ("A.TX", 0x15, 0x1500000000000000, 0xFFFFFFFFFFFFFFFF),
     ("B.INIT", 0x20, 0x2000000000000000, 0xFFFFFFFFFFFFFFFF), ("B.ENCRNG", 0x21, 0x2100000000000000, 0xFF00000000000000),
     ("B.ENCALL", 0x22, 0x2200000000000000, 0xFF000000FFFFFFFF), ("B.TX", 0x23, 0x2300000000000000, 0xFFFFFFFFFFFFFFFF)] ∧
  (∀ r w, OpRow.selects r w = true ↔ w &&& r.mask = r.mtch) ∧
  ∀ w : CmdWord,
    let p : Pixel := ⟨w.extractLsb' 48 8, w.extractLsb' 40 8, w.extractLsb' 32 8⟩
    let brightness : Byte := w.extractLsb' 16 8
    let lo := (w.extractLsb' 0 16).toNat
    let hi := (w.extractLsb' 16 16).toNat
    opcodeTable.map (fun r => r.operands w) =
      [.aInit, .aHdr brightness, .aEncPx p brightness, .aEnc1 p brightness lo, .aEncAll brightness lo, .aTx,
       .bInit, .bEncRng p lo hi, .bEncAll p, .bTx]

/-- R96: at most one row matches a word, decoding gives the matching row's command, and a word that matches none is
illegal. -/
def Obligations.DecodeFollowsTheOneMatchingRow : Prop :=
  (∀ w : CmdWord, opcodeTable.Pairwise (fun r r' => ¬ (r.selects w = true ∧ r'.selects w = true))) ∧
  (∀ (w : CmdWord) (r : OpRow), r ∈ opcodeTable → r.selects w = true → decode w = .ok (r.operands w)) ∧
  (∀ w : CmdWord, (∀ r ∈ opcodeTable, r.selects w = false) → ∃ e, decode w = .error e)

/-- R97, R183 (the spec's decision D19): which words are illegal, and that an illegal word is answered ILLEGAL_COMMAND
(code 4) with no other effect, in every state. -/
def Obligations.IllegalWordIsRefusedWithoutEffect : Prop :=
  (∀ w : CmdWord, IllegalWord w ↔ ∃ e, decode w = .error e) ∧
  (∀ (s : State) (w : CmdWord), IllegalWord w →
    runWord w s = .next { s with response := some ⟨.illegalCommand, 0, none⟩ }) ∧
  Status.illegalCommand.code = 4

/-- Words of spec/95_test_vectors.md section 3.9 (R95 to R97), one of each command family and one of each way a word is
illegal. -/
def Obligations.SpecWordsDecodeAsListed : Prop :=
  decode 0x1000000000000000 = .ok .aInit ∧
  decode 0x1100000000280000 = .ok (.aHdr 40) ∧
  decode 0x12FF000000010000 = .ok (.aEncPx ⟨0xFF, 0, 0⟩ 1) ∧
  decode 0x1311223300050001 = .ok (.aEnc1 ⟨0x11, 0x22, 0x33⟩ 5 1) ∧
  decode 0x1400000000050002 = .ok (.aEncAll 5 2) ∧
  decode 0x1500000000000000 = .ok .aTx ∧
  decode 0x2000000000000000 = .ok .bInit ∧
  decode 0x2112345600020001 = .ok (.bEncRng ⟨0x12, 0x34, 0x56⟩ 1 2) ∧
  decode 0x22A55AC300000000 = .ok (.bEncAll ⟨0xA5, 0x5A, 0xC3⟩) ∧
  decode 0x2300000000000000 = .ok .bTx ∧
  decode 0x1311223301050001 = .error (.mustBeZeroBitSet "A.ENC1") ∧
  decode 0x2400000000000000 = .error (.reservedOpcode 0x24)

/-- R100, R101, R102: lines of assembler, in the spelling of spec/95_test_vectors.md sections 2 and 3 and of R100, give the
words listed there, the host accesses they name, or the commands a pseudo-instruction expands to. How tokens are separated
is the model's choice (log 24). -/
def Obligations.AssemblerLinesGiveTheListedWords : Prop :=
  assembleLine "A.INIT".toList = some [.command 0x1000000000000000] ∧
  assembleLine "A.HDR 40".toList = some [.command 0x1100000000280000] ∧
  assembleLine "A.ENCPX (0xFF, 0x00, 0x00), 1".toList = some [.command 0x12FF000000010000] ∧
  assembleLine "A.ENC1 (0x11, 0x22, 0x33), 5, 1".toList = some [.command 0x1311223300050001] ∧
  assembleLine "A.ENCALL 5, 2".toList = some [.command 0x1400000000050002] ∧
  assembleLine "B.ENCRNG (0x12, 0x34, 0x56), 0, 65535".toList = some [.command 0x21123456FFFF0000] ∧
  assembleLine "B.ENCALL (0xFF, 0, 0)".toList = some [.command 0x22FF000000000000] ∧
  assembleLine "B.TX ; send".toList = some [.command 0x2300000000000000] ∧
  assembleLine "A.UPDATE 5, 2".toList = some [.command 0x1400000000050002, .command 0x1500000000000000] ∧
  assembleLine "PIX_A[1] := (0xAA, 0xBB, 0xCC)".toList = some [.storePixA 1 ⟨0xAA, 0xBB, 0xCC⟩] ∧
  assembleLine "WIRE_A[3] := 0xFF".toList = some [.storeWireA 3 0xFF] ∧
  assembleLine "A.HDR".toList = none

/-! ### The step -/

/-- R96, R103: with no transmit under way and a command word next, a step is the decoded command's meaning, or the refusal of
an illegal word, the host's action taken and no response standing meanwhile. That the host's coming actions stand in a
list is the model's choice (log 1). -/
def Obligations.StepRunsTheDecodedCommand : Prop :=
  ∀ (s : State) (w : CmdWord) (rest : List HostAction), s.atRest → s.host = .command w :: rest →
    (∀ i, decode w = .ok i → step s = exec i { s with host := rest, response := none }) ∧
    (∀ e, decode w = .error e →
      step s = .next { s with host := rest, response := some ⟨.illegalCommand, 0, none⟩ })

/-- R129, R157, R103: a step of a machine with a transmit under way is a step of its sequencer; with nothing to do the
block keeps its state (R205). Of two busy encoders A goes first, which is the model's choice and no run shows (log 12). -/
def Obligations.StepServesABusyEncoderFirst : Prop :=
  ∀ s : State,
    (s.a.seq ≠ .idle → step s = seqStep .A s) ∧
    (s.a.seq = .idle → s.b.seq ≠ .idle → step s = seqStep .B s) ∧
    (s.atRest → s.host = [] → step s = .next s)

/-- R22, R24, R25, R61, R64: a host store inside its space changes that one cell and nothing else; a host load inside its
space returns what the cell holds and changes no cell. -/
def Obligations.HostAccessesBetweenCommands : Prop :=
  ∀ (s : State) (rest : List HostAction), s.atRest →
    (∀ k p, s.host = .storePixA k p :: rest → k < s.par.nA →
      ∃ m, step s = .next { s with host := rest, pixA := m } ∧
        ∀ c, Memory.read Config.initialPixA m c = if c = k then p else s.readPixA c) ∧
    (∀ a v, s.host = .storeWireA a v :: rest → a < 4 * s.par.nA →
      ∃ m, step s = .next { s with host := rest, wireA := m } ∧
        ∀ c, Memory.read Config.initialWireA m c = if c = a then v else s.readWireA c) ∧
    (∀ a v, s.host = .storeWireB a v :: rest → a < 12 * s.par.nB →
      ∃ m, step s = .next { s with host := rest, wireB := m } ∧
        ∀ c, Memory.read Config.initialWireB m c = if c = a then v else s.readWireB c) ∧
    (∀ k, s.host = .loadPixA k :: rest → k < s.par.nA →
      step s = .next { s with host := rest, loaded := some (.pixel (s.readPixA k)) }) ∧
    (∀ a, s.host = .loadWireA a :: rest → a < 4 * s.par.nA →
      step s = .next { s with host := rest, loaded := some (.byte (s.readWireA a)) }) ∧
    (∀ a, s.host = .loadWireB a :: rest → a < 12 * s.par.nB →
      step s = .next { s with host := rest, loaded := some (.byte (s.readWireB a)) })

/-- R50: nothing outside the three spaces is addressable. That such an access stops the model is the model's choice
(log 11). -/
def Obligations.HostAccessOutsideItsSpaceStops : Prop :=
  ∀ (s : State) (act : HostAction) (rest : List HostAction) (space : Space) (a size : Nat),
    s.atRest → s.host = act :: rest → act.target s.par = some (space, a, size) → size ≤ a →
      step s = .fault (.noSuchAddress space a)

/-- R64, R68: while a transmit is under way no host action is taken, no memory cell changes, and the other encoder does
not move. -/
def Obligations.NoHostAccessWhileACommandRuns : Prop :=
  ∀ (x : Side) (s t : State), (s.enc x).seq ≠ .idle → seqStep x s = .next t →
    t.host = s.host ∧ t.loaded = s.loaded ∧ t.pixA = s.pixA ∧ t.wireA = s.wireA ∧ t.wireB = s.wireB ∧ t.par = s.par ∧
    (x = .A → t.b = s.b) ∧ (x = .B → t.a = s.a)

/-! ### Encoder A -/

/-- R120: the clamp saturates, it does not truncate, and it is silent: no brightness is an error. -/
def Obligations.BrightnessClampSaturates : Prop :=
  (∀ b : Byte, (clamp5 b).toNat = min b.toNat 31 ∧ (b.toNat ≤ 31 → clamp5 b = b) ∧ (32 ≤ b.toNat → clamp5 b = 31)) ∧
  clamp5 40 = 31 ∧
  ∀ (b : Byte) (s : State), ∃ d, exec (.aHdr b) s = .next { s with response := some ⟨.ok, d, none⟩ }

/-- R121, R132: the header's fixed top bits and its intensity field. -/
def Obligations.HeaderCarriesFixedBitsAndIntensity : Prop :=
  (∀ b : Byte, hdrA b = 0xE0 ||| clamp5 b ∧ hdrA b = (0b111 <<< 5) ||| clamp5 b ∧ hdrA b = 0xE0 + clamp5 b ∧
    hdrA b &&& 0b11100000 = 0b11100000 ∧
    (hdrA b &&& 0b00011111).toNat = min b.toNat 31 ∧ 0xE0 ≤ (hdrA b).toNat) ∧
  hdrA 0 = 0xE0 ∧ hdrA 1 = 0xE1 ∧ hdrA 31 = 0xFF ∧ hdrA 40 = 0xFF ∧ hdrA 255 = 0xFF

/-- R124: `A.HDR` responds with the header byte in bits [7:0] and changes nothing else, in every state, before INIT as
after it; brightness 0 gives `0xE0`, 31 and every larger one `0xFF`. -/
def Obligations.HdrRespondsWithTheHeader : Prop :=
  (∀ (b : Byte) (s : State),
    exec (.aHdr b) s = .next { s with response := some ⟨.ok, (0 : BitVec 24) ++ hdrA b, none⟩ }) ∧
  hdrA 0 = 0xE0 ∧ ∀ b : Byte, 31 ≤ b.toNat → hdrA b = 0xFF

/-- R122, R125: `A.ENCPX` responds with header, blue, green, red, the header most significant, and changes nothing else,
in every state. -/
def Obligations.EncPxRespondsWithTheFourBytes : Prop :=
  (∀ (p : Pixel) (b : Byte) (s : State),
    encA p b = [hdrA b, p.blue, p.green, p.red] ∧
    exec (.aEncPx p b) s = .next { s with response := some ⟨.ok, hdrA b ++ p.blue ++ p.green ++ p.red, none⟩ }) ∧
  encA ⟨0xFF, 0x00, 0x00⟩ 1 = [0xE1, 0x00, 0x00, 0xFF]

/-- R126, R134: `A.ENC1` with an index inside the pixel count stores the pixel's four bytes at `4 * index` and leaves
every other byte; with any other index it changes nothing; it responds OK both times. -/
def Obligations.Enc1StoresOneSlotOrNothing : Prop :=
  ∀ (p : Pixel) (b : Byte) (index : Nat) (s : State),
    (index < s.par.nA →
      ∃ m, exec (.aEnc1 p b index) s = .next { s with wireA := m, response := some ⟨.ok, 0, none⟩ } ∧
        Memory.read Config.initialWireA m (slotAddrA index) = hdrA b ∧
        Memory.read Config.initialWireA m (slotAddrA index + 1) = p.blue ∧
        Memory.read Config.initialWireA m (slotAddrA index + 2) = p.green ∧
        Memory.read Config.initialWireA m (slotAddrA index + 3) = p.red ∧
        ∀ a, a < slotAddrA index ∨ slotAddrA index + 4 ≤ a →
          Memory.read Config.initialWireA m a = s.readWireA a) ∧
    (s.par.nA ≤ index → exec (.aEnc1 p b index) s = .next { s with response := some ⟨.ok, 0, none⟩ }) ∧
    slotAddrA index = 4 * index

/-- R127: `A.ENCALL` encodes the first `min(M, N_A)` pixels of `PIX_A` into the first slots with one brightness, and
leaves every byte after them. -/
def Obligations.EncAllStoresTheLeadingSlots : Prop :=
  ∀ (b : Byte) (count : Nat) (s : State),
    ∃ m, exec (.aEncAll b count) s = .next { s with wireA := m, response := some ⟨.ok, 0, none⟩ } ∧
      (∀ k, k < min count s.par.nA →
        Memory.read Config.initialWireA m (slotAddrA k) = hdrA b ∧
        Memory.read Config.initialWireA m (slotAddrA k + 1) = (s.readPixA k).blue ∧
        Memory.read Config.initialWireA m (slotAddrA k + 2) = (s.readPixA k).green ∧
        Memory.read Config.initialWireA m (slotAddrA k + 3) = (s.readPixA k).red) ∧
      ∀ a, slotAddrA (min count s.par.nA) ≤ a → Memory.read Config.initialWireA m a = s.readWireA a

/-- R133: after a full `A.ENCALL` the buffer a transmit sends has length `4N` and holds, pixel by pixel, blue, green, red
after the header. -/
def Obligations.FullEncodeFillsTheWholeBody : Prop :=
  ∀ (b : Byte) (s : State),
    ∃ t, exec (.aEncAll b s.par.nA) s = .next t ∧ t.bodyA.length = 4 * s.par.nA ∧
      ∀ k, k < s.par.nA →
        t.bodyA[4 * k]? = some (hdrA b) ∧ t.bodyA[4 * k + 1]? = some (s.readPixA k).blue ∧
        t.bodyA[4 * k + 2]? = some (s.readPixA k).green ∧ t.bodyA[4 * k + 3]? = some (s.readPixA k).red

/-- R135, R164: issuing an encode command twice leaves what issuing it once leaves. -/
def Obligations.EncodingTwiceIsEncodingOnce : Prop :=
  ∀ (i : Instr) (s t : State), i ≠ .aInit → i ≠ .bInit → i ≠ .aTx → i ≠ .bTx →
    Memory.wf s.wireA = true → Memory.wf s.wireB = true → exec i s = .next t → exec i t = .next t

/-! ### Configuration -/

/-- R123, R153: an INIT emits one `Configure` event, writes the transport's configuration and sets `X.cfg`; it can be
repeated, and needs nothing. -/
def Obligations.InitConfiguresItsTransport : Prop :=
  ∀ s : State,
    exec .aInit s = .next { s with
      a := { s.a with
        trace := s.a.trace ++ [.configure s.par.clockAHz ⟨.low, .leading⟩],
        busCfg := some ⟨s.par.clockAHz, ⟨.low, .leading⟩⟩,
        cfg := true },
      response := some ⟨.ok, 0, none⟩ } ∧
    exec .bInit s = .next { s with
      b := { s.b with
        trace := s.b.trace ++ [.configure 4000000 s.par.modeB],
        busCfg := some ⟨4000000, s.par.modeB⟩,
        cfg := true },
      response := some ⟨.ok, 0, none⟩ }

/-- R182 (the spec's decision D16): a transmit before INIT responds NOT_CONFIGURED (code 3) and does nothing; no other
command responds so. -/
def Obligations.TransmitBeforeInitIsRefused : Prop :=
  (∀ (x : Side) (s : State), (s.enc x).cfg = false →
    exec (txCommand x) s = .next { s with response := some ⟨.notConfigured, 0, none⟩ }) ∧
  (∀ (i : Instr) (s t : State) (r : Response), (∀ x, i ≠ txCommand x) → exec i s = .next t → t.response = some r →
    r.status ≠ .notConfigured) ∧
  Status.notConfigured.code = 3

/-- R36, R221: `X.cfg` is written by `X.INIT` only, and nothing that happens clears it. -/
def Obligations.ConfiguredOnlyByInitAndForGood : Prop :=
  (∀ (i : Instr) (s t : State), exec i s = .next t →
    t.a.cfg = (s.a.cfg || decide (i = .aInit)) ∧ t.b.cfg = (s.b.cfg || decide (i = .bInit))) ∧
  (∀ s t : State, step s = .next t →
    (s.a.cfg = true → t.a.cfg = true) ∧ (s.b.cfg = true → t.b.cfg = true))

/-! ### Transmission -/

/-- R128, R136, R82: a configured `A.TX` whose three writes succeed asserts chip-select, writes the start frame, `WIRE_A`
as it stands and the end frame, deasserts chip-select, and ends OK and Idle; nothing else changes.
The replies and the bytes on the bus are held as log 4 and log 5 say. -/
def Obligations.ATxSendsTheFramedBuffer : Prop :=
  ∀ s : State, s.a.cfg = true →
    s.a.replyAt .A 0 = .ok → s.a.replyAt .A 1 = .ok → s.a.replyAt .A 2 = .ok →
    exec .aTx s = .next { s with
      a := { s.a with
        seq := .idle, phase := 0,
        cs := if s.par.hasCsA = true then .driven true else s.a.cs,
        trace := s.a.trace ++ (if s.par.hasCsA = true then [.setLevel false] else []) ++
          [.write [0x00, 0x00, 0x00, 0x00] .ok, .write s.bodyA .ok,
           .write (List.replicate s.par.endFrameBytes 0xFF) .ok] ++
          (if s.par.hasCsA = true then [.setLevel true] else []),
        replies := (s.a.afterReplies 3).replies, draws := (s.a.afterReplies 3).draws,
        onBus := s.a.onBus ++ [0x00, 0x00, 0x00, 0x00] ++ s.bodyA ++ List.replicate s.par.endFrameBytes 0xFF },
      response := some ⟨.ok, 0, none⟩ }

/-- R156, R165, R86: a configured `B.TX` whose write succeeds asserts chip-select, writes the whole of `WIRE_B` as it
stands in one write, deasserts chip-select, and ends OK and Idle; nothing else changes.
The replies and the bytes on the bus are held as log 4 and log 5 say. -/
def Obligations.BTxSendsTheBareBuffer : Prop :=
  ∀ s : State, s.b.cfg = true → s.b.replyAt .B 0 = .ok →
    exec .bTx s = .next { s with
      b := { s.b with
        seq := .idle, phase := 0,
        cs := if s.par.hasCsB = true then .driven true else s.b.cs,
        trace := s.b.trace ++ (if s.par.hasCsB = true then [.setLevel false] else []) ++ [.write s.bodyB .ok] ++
          (if s.par.hasCsB = true then [.setLevel true] else []),
        replies := (s.b.afterReplies 1).replies, draws := (s.b.afterReplies 1).draws,
        onBus := s.b.onBus ++ s.bodyB },
      response := some ⟨.ok, 0, none⟩ }

/-- R82, R86, R34: the bus byte stream of a successful transmit, `rep(4, 0x00) ++ body ++ rep(END_FRAME_BYTES, 0xFF)` for
encoder A and the body alone for encoder B, and its length.
The replies are held as log 4 says. -/
def Obligations.BusStreamOfASuccessfulTransmit : Prop :=
  (∀ s : State, s.a.cfg = true → s.a.replyAt .A 0 = .ok → s.a.replyAt .A 1 = .ok → s.a.replyAt .A 2 = .ok →
    ∃ t stream, exec .aTx s = .next t ∧ busStream t.a.trace = busStream s.a.trace ++ stream ∧
      stream = rep 4 0x00 ++ s.bodyA ++ rep s.par.endFrameBytes 0xFF ∧
      stream.length = 4 + 4 * s.par.nA + s.par.endFrameBytes) ∧
  (∀ s : State, s.b.cfg = true → s.b.replyAt .B 0 = .ok →
    ∃ t, exec .bTx s = .next t ∧ busStream t.b.trace = busStream s.b.trace ++ s.bodyB ∧
      s.bodyB.length = 12 * s.par.nB)

/-- R186, R181, R187, R188: a transmit whose write number `k` is the first to fail records that write with its error,
issues none of the later ones, deasserts chip-select only if CS_ON_ERROR is released, ends Idle with TRANSPORT_ERROR
(code 2) and the transport's value unchanged, leaves `X.cfg` and memory, and has put on the bus the earlier writes and a
drawn prefix of the failed one.
The replies and the prefix are held as log 4 and log 5 say. -/
def Obligations.TransmitStopsAtTheFirstFailedWrite : Prop :=
  (∀ (x : Side) (s : State) (k : Nat) (bytes : List Byte) (t : TransportError) (sent : Nat),
    (s.enc x).cfg = true → (s.frame x)[k]? = some bytes →
    (∀ j, j < k → (s.enc x).replyAt x j = .ok) → (s.enc x).replyAt x k = .err t sent →
    exec (txCommand x) s = .next { s.setEnc x { s.enc x with
        seq := .idle, phase := 0,
        cs := if s.par.hasCs x = true then .driven (decide (s.par.csOnError = .released)) else (s.enc x).cs,
        trace := (s.enc x).trace ++ (if s.par.hasCs x = true then [.setLevel false] else []) ++
          ((s.frame x).take k).map (fun w => .write w .ok) ++ [.write bytes (.err t)] ++
          (if s.par.hasCs x = true ∧ s.par.csOnError = .released then [.setLevel true] else []),
        replies := ((s.enc x).afterReplies (k + 1)).replies, draws := ((s.enc x).afterReplies (k + 1)).draws,
        onBus := (s.enc x).onBus ++ ((s.frame x).take k).flatten ++ bytes.take sent } with
      response := some ⟨.transportError, 0, some t⟩ }) ∧
  Status.transportError.code = 2

/-- R71, U13: a transmit whose write number `k` is never answered stays in `Transmitting` with that write pending and no
response, chip-select asserted, memory untouched, and has no further step.
The form of the stop is the model's choice (log 7). -/
def Obligations.UnansweredWriteLeavesTheEncoderTransmitting : Prop :=
  ∀ (x : Side) (s : State) (k : Nat),
    (s.enc x).cfg = true → k < (s.frame x).length →
    (∀ j, j < k → (s.enc x).replyAt x j = .ok) → (s.enc x).replyAt x k = .never →
    ∃ t, exec (txCommand x) s = .next t ∧ (t.enc x).seq = .transmitting ∧ (t.enc x).phase = k ∧
      (s.par.hasCs x = true → (t.enc x).cs = .driven false) ∧
      (t.enc x).trace = (s.enc x).trace ++ (if s.par.hasCs x = true then [.setLevel false] else []) ++
        ((s.frame x).take k).map (fun w => .write w .ok) ∧
      t.response = s.response ∧ t.pixA = s.pixA ∧ t.wireA = s.wireA ∧ t.wireB = s.wireB ∧
      seqStep x t = .fault .transportNeverAnswers

/-- R128, R129, R156, R157: the big-step and the small-step form of a transmit agree: at most six steps of the sequencer,
from its start on, reach the state the command answers, where it is Idle or has no further step. Without INIT the start is
already the refusal. That a transmit without a further step (R71) stops with the fault `transportNeverAnswers` is the form
the model chose (log 7). -/
def Obligations.SmallStepsReachWhatTheCommandAnswers : Prop :=
  ∀ (x : Side) (s t : State), exec (txCommand x) s = .next t →
    ((s.enc x).cfg = false → startTransmit x s = t) ∧
    ((s.enc x).cfg = true →
      (∃ n, n ≤ 6 ∧ seqRun x n (startTransmit x s) = .next t) ∧
      ((t.enc x).seq = .idle ∨ seqStep x t = .fault .transportNeverAnswers))

/-- R158, R38: a transmit does not look at the bus configuration: with another one in the transport it does the same and
leaves that one. -/
def Obligations.TransmitIgnoresTheBusConfiguration : Prop :=
  ∀ (x : Side) (s t : State) (c : Option BusCfg), exec (txCommand x) s = .next t →
    exec (txCommand x) (s.setEnc x { s.enc x with busCfg := c }) = .next (t.setEnc x { t.enc x with busCfg := c })

/-! ### Encoder B -/

/-- R150, R151: the symbol of a bit and the colour word of a pixel. -/
def Obligations.SymbolAndColourWord : Prop :=
  symB true = 0b1110 ∧ symB false = 0b1000 ∧ wordB ⟨0xFF, 0x00, 0x00⟩ = 0x00FF00 ∧
  ∀ p : Pixel, wordB p = (p.green.setWidth 24 <<< 16) ||| (p.red.setWidth 24 <<< 8) ||| p.blue.setWidth 24 ∧
    wordB p = p.green ++ p.red ++ p.blue

/-- R152, R85: a slot has 12 bytes; byte `j` holds the symbols of word bits `23 - 2j` and `22 - 2j`, high nibble first;
green, then red, then blue, two bits a byte, each pair as the four bytes say; every byte is one of the four; and no two
pixels share a slot. The last three are inferences the spec makes from R151 and R152. -/
def Obligations.SlotOfEncoderB : Prop :=
  (∀ p : Pixel, (encB p).length = 12 ∧
    (∀ j, j < 12 → (encB p)[j]? =
      some (symB ((wordB p).getLsbD (23 - 2 * j)) ++ symB ((wordB p).getLsbD (22 - 2 * j)))) ∧
    encB p = channelBytes p.green ++ channelBytes p.red ++ channelBytes p.blue ∧
    ∀ v ∈ encB p, LegalByteB v) ∧
  (pairByte false false = 0x88 ∧ pairByte false true = 0x8E ∧ pairByte true false = 0xE8 ∧ pairByte true true = 0xEE) ∧
  ∀ p q : Pixel, encB p = encB q → p = q

/-- R163, R89: decoding an encoded slot gives the colour word back. -/
def Obligations.DecodingASlotGivesTheWordBack : Prop :=
  (∀ p : Pixel, decB (encB p) = some (wordB p)) ∧
  decSym 0xE = some true ∧ decSym 0x8 = some false ∧ ∀ y : Symbol, y ≠ 0xE → y ≠ 0x8 → decSym y = none

/-- R54, R83, R166: bit by bit, an encoded slot leaves on the bus as 24 symbols, most significant colour bit first, a 1 as
three high symbol-periods and one low, a 0 as one high and three low. -/
def Obligations.SlotLeavesAsTwentyFourSymbols : Prop :=
  ∀ p : Pixel, busBits (encB p) = (List.range 24).flatMap (fun i =>
    if (wordB p).getLsbD (23 - i) = true then [true, true, true, false] else [true, false, false, false])

/-- R154, R162, R180: `B.ENCRNG` with `start ≤ stop < N_B` writes the pixel's slot into each slot of the range and leaves
every other byte; with any other range it responds RANGE_ERROR (code 1) and changes nothing. That a range with
`stop < start` is refused is the decision D23 of the spec (log 13). -/
def Obligations.EncRngFillsItsRangeOrNothing : Prop :=
  (∀ (p : Pixel) (start stop : Nat) (s : State),
    (start ≤ stop → stop < s.par.nB →
      ∃ m, exec (.bEncRng p start stop) s = .next { s with wireB := m, response := some ⟨.ok, 0, none⟩ } ∧
        (∀ k j, start ≤ k → k ≤ stop → j < 12 →
          (encB p)[j]? = some (Memory.read Config.initialWireB m (slotAddrB k + j))) ∧
        ∀ a, a < slotAddrB start ∨ slotAddrB (stop + 1) ≤ a →
          Memory.read Config.initialWireB m a = s.readWireB a) ∧
    (stop < start ∨ s.par.nB ≤ stop →
      exec (.bEncRng p start stop) s = .next { s with response := some ⟨.rangeError, 0, none⟩ }) ∧
    slotAddrB start = 12 * start) ∧
  Status.rangeError.code = 1

/-- R155: `B.ENCALL p` is `B.ENCRNG p, 0, N_B - 1`; with `N_B ≥ 1` (decision D5) it responds OK and writes every slot. -/
def Obligations.EncAllBFillsTheWholeBuffer : Prop :=
  ∀ (p : Pixel) (s : State),
    exec (.bEncAll p) s = exec (.bEncRng p 0 (s.par.nB - 1)) s ∧
    (1 ≤ s.par.nB →
      ∃ m, exec (.bEncAll p) s = .next { s with wireB := m, response := some ⟨.ok, 0, none⟩ } ∧
        (∀ k j, k < s.par.nB → j < 12 →
          (encB p)[j]? = some (Memory.read Config.initialWireB m (slotAddrB k + j))) ∧
        ∀ a, slotAddrB s.par.nB ≤ a → Memory.read Config.initialWireB m a = s.readWireB a)

/-- R165, R88, R80: after a full encode every byte encoder B would send is one of the four legal ones, and every slot
encoder A would send begins with a legal header. -/
def Obligations.FullEncodeLeavesNoForeignByte : Prop :=
  (∀ (p : Pixel) (s : State), 1 ≤ s.par.nB →
    ∃ t, exec (.bEncAll p) s = .next t ∧ t.bodyB.length = 12 * s.par.nB ∧ ∀ v ∈ t.bodyB, LegalByteB v) ∧
  (∀ (b : Byte) (s : State), ∃ t, exec (.aEncAll b s.par.nA) s = .next t ∧
    ∀ k, k < s.par.nA → ∃ v, t.bodyA[4 * k]? = some v ∧ v &&& 0xE0 = 0xE0)

/-! ### Pseudo-instructions -/

/-- R101, R102 (the spec's decision D20): what each pseudo-instruction expands to. For a `B.ENCBUF` list longer than `N_B`,
of which R102 says nothing, it is the model's choice (log 23). -/
def Obligations.PseudoInstructionsExpand : Prop :=
  (∀ b n, Pseudo.expand (.aUpdate b n) = [.aEncAll b n, .aTx]) ∧
  (∀ p k, Pseudo.expand (.bEnc1 p k) = [.bEncRng p k k]) ∧
  (∀ ps : List Pixel, (Pseudo.expand (.bEncBuf ps)).length = ps.length ∧
    ∀ k, k < ps.length → ∃ p, ps[k]? = some p ∧ (Pseudo.expand (.bEncBuf ps))[k]? = some (.bEncRng p k k)) ∧
  (∀ p, Pseudo.expand (.bUpdate p) = [.bEncAll p, .bTx])

/-- R102: `B.ENCBUF` converts a list of at most `N_B` pixels, each into its own slot, and leaves the slots after them; with
no pixels it issues nothing. -/
def Obligations.EncBufConvertsAWholeBuffer : Prop :=
  (∀ s : State, runCommands (Pseudo.expand (.bEncBuf [])) s = .next s) ∧
  ∀ (ps : List Pixel) (s : State), ps ≠ [] → ps.length ≤ s.par.nB →
    ∃ m, runCommands (Pseudo.expand (.bEncBuf ps)) s =
        .next { s with wireB := m, response := some ⟨.ok, 0, none⟩ } ∧
      (∀ k p j, ps[k]? = some p → j < 12 →
        (encB p)[j]? = some (Memory.read Config.initialWireB m (slotAddrB k + j))) ∧
      ∀ a, slotAddrB ps.length ≤ a → Memory.read Config.initialWireB m a = s.readWireB a

/-! ### The whole machine -/

/-- R43, R44, R220 (the spec's decision D14): every piece of the spec's state at reset, for every value of the parameters;
each memory cell reads as a value nothing constrains (log 3). -/
def Obligations.ResetIsAsTheSpecSays : Prop :=
  (∀ (p : Params) (x : Side),
    let s := State.resetOf p
    s.par = p ∧ (s.enc x).seq = .idle ∧ (s.enc x).phase = 0 ∧ (s.enc x).cfg = false ∧ (s.enc x).cs = .undriven ∧
    (s.enc x).trace = [] ∧ (s.enc x).busCfg = none ∧ s.response = none ∧
    ∀ a, s.readPixA a = Config.initialPixA a ∧ s.readWireA a = Config.initialWireA a ∧
      s.readWireB a = Config.initialWireB a) ∧
  ∃ p, State.reset = State.resetOf p

/-- The invariant holds at reset, for every legal value of the parameters. -/
def Obligations.ResetIsSound : Prop :=
  (∀ p : Params, p.legal = true → (State.resetOf p).Inv) ∧ State.reset.Inv

/-- Every step keeps the invariant, from every state that has it: the memories keep their canonical form and their bounds
(R57), the phase counter its range (R32), chip-select, the bus configuration and `X.cfg` stay what the trace says (R35 to
R38), no two encoders are busy (R203), and a response has the form of R104. -/
def Obligations.EveryStepKeepsTheMachineSound : Prop :=
  ∀ s t : State, s.Inv → step s = .next t → t.Inv

/-- A sound machine stops only where the spec gives it no step: on a write the transport never answers (R71), or on a host
access outside the address spaces (R50; log 11). -/
def Obligations.MachineStopsOnlyStuckOrAstray : Prop :=
  ∀ s : State, s.Inv →
    (GoesOn (step s) ↔ ¬ (s.stuckOn .A ∨ s.stuckOn .B ∨ (s.atRest ∧ s.hostAstray)))

/-- R196, R192: every command may be issued at any time the block is idle, and an error is a response: each has a next
state. That it is so in a state with a transmit under way too is the model's choice (log 18), and so is the next state of
a transmit whose write is never answered, which has no response (R71; log 7). -/
def Obligations.EveryCommandGoesOn : Prop :=
  ∀ (i : Instr) (s : State), GoesOn (exec i s)

/-- R39: the parameters are written by no command, and by nothing else that happens. That they stand in the state is the
model's choice (log 2). -/
def Obligations.ParametersAreNeverWritten : Prop :=
  (∀ (i : Instr) (s t : State), exec i s = .next t → t.par = s.par) ∧ ∀ s t : State, step s = .next t → t.par = s.par

/-- R34: each trace is only ever appended to, and never by a command of the other encoder or by a host access. -/
def Obligations.TracesOnlyGrow : Prop :=
  (∀ s t : State, step s = .next t →
    ∃ evA evB, t.a.trace = s.a.trace ++ evA ∧ t.b.trace = s.b.trace ++ evB ∧ (evA = [] ∨ evB = [])) ∧
  (∀ s t : State, s.atRest → (∀ w rest, s.host ≠ .command w :: rest) → step s = .next t →
    t.a.trace = s.a.trace ∧ t.b.trace = s.b.trace)

/-- R2: the encoders are independent: a command of one neither changes nor reads the state and the memory of the other. -/
def Obligations.EncodersShareNoState : Prop :=
  (∀ (i : Instr) (s t : State) (e : Encoder) (m : Memory Byte), i.side = .A → exec i s = .next t →
    t.b = s.b ∧ t.wireB = s.wireB ∧
    exec i { s with b := e, wireB := m } = .next { t with b := e, wireB := m }) ∧
  (∀ (i : Instr) (s t : State) (e : Encoder) (mp : Memory Pixel) (m : Memory Byte), i.side = .B → exec i s = .next t →
    t.a = s.a ∧ t.pixA = s.pixA ∧ t.wireA = s.wireA ∧
    exec i { s with a := e, pixA := mp, wireA := m } = .next { t with a := e, pixA := mp, wireA := m })

/-- R31, R50, C8: only a transmit moves the sequencer, chip-select or the transport's replies; an encode or pure command
reaches no port at all; an INIT or a transmit stores to no memory; no command writes `PIX_A`, the parameters, or what is
the host's. -/
def Obligations.EachCommandKeepsToItsOwnState : Prop :=
  ∀ (i : Instr) (s t : State), exec i s = .next t →
    (t.par = s.par ∧ t.pixA = s.pixA ∧ t.host = s.host ∧ t.loaded = s.loaded) ∧
    (i ≠ .aTx → t.a.seq = s.a.seq ∧ t.a.phase = s.a.phase ∧ t.a.cs = s.a.cs ∧ t.a.replies = s.a.replies ∧
      t.a.draws = s.a.draws ∧ t.a.onBus = s.a.onBus) ∧
    (i ≠ .bTx → t.b.seq = s.b.seq ∧ t.b.phase = s.b.phase ∧ t.b.cs = s.b.cs ∧ t.b.replies = s.b.replies ∧
      t.b.draws = s.b.draws ∧ t.b.onBus = s.b.onBus) ∧
    (i ≠ .aTx → i ≠ .aInit → t.a = s.a) ∧ (i ≠ .bTx → i ≠ .bInit → t.b = s.b) ∧
    (i = .aInit ∨ i = .bInit ∨ i = .aTx ∨ i = .bTx → t.wireA = s.wireA ∧ t.wireB = s.wireB) ∧
    (i ≠ .aInit → t.a.busCfg = s.a.busCfg) ∧ (i ≠ .bInit → t.b.busCfg = s.b.busCfg)

/-- R104, R180 to R182, R191: a command issued ends with exactly one response, of the form of R104 and with a status that
command can have; only a transmit whose transport never answers ends with none (R71). -/
def Obligations.EveryCommandEndsWithOneResponse : Prop :=
  ∀ (i : Instr) (s t : State), s.response = none → exec i s = .next t →
    (∃ x, i = txCommand x ∧ t.response = none ∧ (t.enc x).seq = .transmitting ∧ (t.enc x).nextReply x = .never) ∨
    (∃ r, t.response = some r ∧
      (r.status = .ok → r.err = none ∧ ((∀ b, i ≠ .aHdr b) → (∀ p b, i ≠ .aEncPx p b) → r.data = 0)) ∧
      (r.status = .rangeError → (∃ p k n, i = .bEncRng p k n) ∨ ((∃ p, i = .bEncAll p) ∧ s.par.nB = 0)) ∧
      (r.status = .notConfigured → ∃ x, i = txCommand x ∧ (s.enc x).cfg = false) ∧
      (r.status = .transportError ↔ r.err.isSome = true) ∧
      (r.status = .transportError → ∃ x, i = txCommand x ∧ (s.enc x).cfg = true) ∧
      r.status ≠ .illegalCommand ∧
      (r.status ≠ .ok → r.data = 0))

/-- R31, R186, R187: a transmit that is answered ends Idle with phase 0, chip-select deasserted if it ended OK or if
CS_ON_ERROR is released, and asserted if it failed and CS_ON_ERROR is held. -/
def Obligations.ChipSelectAfterATransmit : Prop :=
  ∀ (x : Side) (s t : State) (r : Response), (s.enc x).cfg = true → s.response = none →
    exec (txCommand x) s = .next t → t.response = some r →
    (t.enc x).seq = .idle ∧ (t.enc x).phase = 0 ∧ (t.enc x).cfg = true ∧
    (s.par.hasCs x = false → (t.enc x).cs = (s.enc x).cs) ∧
    (s.par.hasCs x = true → r.status = .ok → (t.enc x).cs = .driven true) ∧
    (s.par.hasCs x = true → r.status = .transportError →
      (t.enc x).cs = .driven (decide (s.par.csOnError = .released)))

/-- R181, R12, U19: a transport error is only carried, "propagated unchanged": with every error replaced by its image under
any `f`, in the machine and in what the transports answer, a command and a step answer the same next state with the errors
replaced. So nothing depends on which values the type `TransportError` has (log 6). -/
def Obligations.TransportErrorsAreOnlyCarried : Prop :=
  ∀ (f : TransportError → TransportError) (s t : State), s.answersRelabelled f →
    (∀ i : Instr, exec i s = .next t → exec i (s.relabel f) = .next (t.relabel f)) ∧
    (step s = .next t → step (s.relabel f) = .next (t.relabel f))
end

