-- ==== Sys2Proof/Laws/Memory.lean ====
section
/-! SUPPORT. The laws of memory: a write keeps the canonical form, a read after a write gives the value written, a write
leaves every other address alone, and a canonical memory is determined by what it reads as. -/

namespace Sys2Proof.Machine

variable {α : Type}

theorem Memory.risesFrom_mono {lo lo' : Nat} (h : lo' ≤ lo) :
    ∀ {m : List (Nat × α)}, Memory.risesFrom lo m = true → Memory.risesFrom lo' m = true
  | [], _ => rfl
  | (a, v) :: rest, hm => by
    simp only [Memory.risesFrom, Bool.and_eq_true, decide_eq_true_eq] at hm ⊢
    exact ⟨by omega, hm.2⟩

theorem Memory.set_risesFrom {lo a : Nat} {v : α} (h : lo ≤ a) :
    ∀ {m : List (Nat × α)}, Memory.risesFrom lo m = true → Memory.risesFrom lo (Memory.set m a v) = true
  | [], _ => by simp [Memory.set, Memory.risesFrom, h]
  | (b, w) :: rest, hm => by
    simp only [Memory.risesFrom, Bool.and_eq_true, decide_eq_true_eq] at hm
    unfold Memory.set
    split
    · simp [Memory.risesFrom, h]
      exact ⟨by omega, hm.2⟩
    · split
      · subst_vars; simp [Memory.risesFrom, h, hm.2]
      · simp only [Memory.risesFrom, Bool.and_eq_true, decide_eq_true_eq]
        exact ⟨hm.1, Memory.set_risesFrom (by omega) hm.2⟩

/-- A store keeps the canonical form. -/
theorem Memory.set_wf {m : Memory α} {a : Nat} {v : α} (h : m.wf = true) : Memory.wf (Memory.set m a v) = true :=
  Memory.set_risesFrom (Nat.zero_le a) h

/-- A sequence of stores keeps the canonical form. -/
theorem Memory.writeSeq_wf : ∀ {vs : List α} {m : Memory α} {a : Nat},
    m.wf = true → Memory.wf (Memory.writeSeq m a vs) = true
  | [], _, _, h => h
  | _ :: vs, _, _, h => Memory.writeSeq_wf (vs := vs) (Memory.set_wf h)

/-- What a store leaves at each address, in any memory, canonical or not. -/
theorem Memory.find_set (m : List (Nat × α)) (a : Nat) (v : α) (c : Nat) :
    Memory.find (Memory.set m a v) c = if c = a then some v else Memory.find m c := by
  induction m with
  | nil => simp [Memory.set, Memory.find, eq_comm]
  | cons hd rest ih =>
    obtain ⟨b, w⟩ := hd
    unfold Memory.set
    split
    · simp [Memory.find, eq_comm]
    · split
      · subst_vars
        by_cases hc : c = b <;> simp [Memory.find, hc, eq_comm]
      · by_cases hc : c = a
        · subst hc
          simp only [Memory.find, ih, if_true]
          rw [if_neg (by omega)]
        · simp [Memory.find, ih, hc]

/-- A read after a store to the same place gives the value stored (R61); any other place is as before. -/
theorem Memory.read_set (init : Nat → α) (m : Memory α) (a : Nat) (v : α) (c : Nat) :
    Memory.read init (Memory.set m a v) c = if c = a then v else Memory.read init m c := by
  unfold Memory.read
  rw [Memory.find_set]
  split <;> rfl

/-- What `MemWrite` leaves at each address (R15). -/
theorem Memory.read_writeSeq (init : Nat → α) : ∀ (vs : List α) (m : Memory α) (a c : Nat),
    Memory.read init (Memory.writeSeq m a vs) c =
      if a ≤ c then (vs[c - a]?).getD (Memory.read init m c) else Memory.read init m c
  | [], m, a, c => by simp [Memory.writeSeq]
  | v :: vs, m, a, c => by
    rw [Memory.writeSeq, Memory.read_writeSeq init vs, Memory.read_set]
    by_cases h : c = a
    · subst h; simp [show ¬ (c + 1 ≤ c) by omega]
    · by_cases h' : a + 1 ≤ c
      · have : c - a = (c - (a + 1)) + 1 := by omega
        simp [h, h', show a ≤ c by omega, this]
      · simp [h, h', show ¬ (a ≤ c) by omega]

/-- Outside the bytes written, `MemWrite` changes nothing (R58). -/
theorem Memory.read_writeSeq_outside (init : Nat → α) {vs : List α} {m : Memory α} {a c : Nat}
    (h : c < a ∨ a + vs.length ≤ c) : Memory.read init (Memory.writeSeq m a vs) c = Memory.read init m c := by
  rw [Memory.read_writeSeq]
  split
  · rw [List.getElem?_eq_none (by omega)]; rfl
  · rfl

/-- Inside the bytes written, `MemWrite` leaves them, the first at the lowest address (R15). -/
theorem Memory.read_writeSeq_inside (init : Nat → α) {vs : List α} {m : Memory α} {a j : Nat} (h : j < vs.length) :
    Memory.read init (Memory.writeSeq m a vs) (a + j) = vs[j] := by
  rw [Memory.read_writeSeq]
  simp [show a + j - a = j by omega, List.getElem?_eq_getElem h]

/-- A store lists no address that was not listed but its own. -/
theorem Memory.mem_set {m : List (Nat × α)} {a : Nat} {v : α} {c : Nat × α}
    (h : c ∈ Memory.set m a v) : c = (a, v) ∨ c ∈ m := by
  induction m with
  | nil => simpa [Memory.set] using h
  | cons hd rest ih =>
    obtain ⟨b, w⟩ := hd
    unfold Memory.set at h
    split at h
    · simpa using h
    · split at h
      · simp only [List.mem_cons] at h ⊢; tauto
      · simp only [List.mem_cons] at h ⊢
        rcases h with h | h
        · tauto
        · rcases ih h with h | h <;> tauto

/-- `MemWrite` lists no address that was not listed but those it writes. -/
theorem Memory.writeSeq_inside : ∀ {vs : List α} {m : Memory α} {a size : Nat},
    (∀ c ∈ m, c.1 < size) → a + vs.length ≤ size → ∀ c ∈ Memory.writeSeq m a vs, c.1 < size
  | [], _, _, _, h, _ => h
  | _ :: vs, m, a, size, h, hs => by
    simp only [List.length_cons] at hs
    refine Memory.writeSeq_inside (vs := vs) (a := a + 1) (fun c hc => ?_) (by omega)
    rcases Memory.mem_set hc with rfl | hc
    · show a < size; omega
    · exact h c hc

theorem Memory.find_none_below {lo a : Nat} : ∀ {m : List (Nat × α)},
    Memory.risesFrom lo m = true → a < lo → Memory.find m a = none
  | [], _, _ => rfl
  | (b, v) :: rest, hm, h => by
    simp only [Memory.risesFrom, Bool.and_eq_true, decide_eq_true_eq] at hm
    rw [Memory.find, if_neg (by omega)]
    exact Memory.find_none_below hm.2 (by omega)

theorem Memory.eq_of_find {lo : Nat} : ∀ {m m' : List (Nat × α)},
    Memory.risesFrom lo m = true → Memory.risesFrom lo m' = true →
    (∀ a, Memory.find m a = Memory.find m' a) → m = m'
  | [], [], _, _, _ => rfl
  | [], (b, v) :: _, _, _, h => by have := h b; simp [Memory.find] at this
  | (b, v) :: _, [], _, _, h => by have := h b; simp [Memory.find] at this
  | (b, v) :: m, (b', v') :: m', hm, hm', h => by
    simp only [Memory.risesFrom, Bool.and_eq_true, decide_eq_true_eq] at hm hm'
    have hb : b = b' := by
      rcases Nat.lt_trichotomy b b' with hlt | heq | hlt
      · have := h b
        rw [Memory.find, if_pos rfl, Memory.find, if_neg (by omega),
          Memory.find_none_below hm'.2 (by omega)] at this
        cases this
      · exact heq
      · have := h b'
        rw [Memory.find, if_neg (by omega), Memory.find_none_below hm.2 (by omega),
          Memory.find, if_pos rfl] at this
        cases this
    subst hb
    have hv : v = v' := by have := h b; simpa [Memory.find] using this
    subst hv
    have : m = m' := Memory.eq_of_find hm.2 hm'.2 (fun a => by
      by_cases ha : a < b + 1
      · rw [Memory.find_none_below hm.2 ha, Memory.find_none_below hm'.2 ha]
      · have := h a
        rwa [Memory.find, if_neg (by omega), Memory.find, if_neg (by omega)] at this)
    rw [this]

/-- Canonical memories that read the same, whatever an unlisted address holds, are the same list (log 3). -/
theorem Memory.eq_of_reads [Nontrivial α] {m m' : Memory α} (hm : m.wf = true) (hm' : m'.wf = true)
    (h : ∀ init a, Memory.read init m a = Memory.read init m' a) : m = m' := by
  refine Memory.eq_of_find hm hm' (fun a => ?_)
  obtain ⟨x, y, hxy⟩ := exists_pair_ne α
  have hx := h (fun _ => x) a
  have hy := h (fun _ => y) a
  unfold Memory.read at hx hy
  cases h1 : Memory.find m a <;> cases h2 : Memory.find m' a <;> simp [h1, h2] at hx hy ⊢
  · exact hxy (hx.trans hy.symm)
  · exact hxy (hx.symm.trans hy)
  · exact hx

@[simp] theorem Memory.readSeq_length (init : Nat → α) (m : Memory α) :
    ∀ (n a : Nat), (Memory.readSeq init m a n).length = n
  | 0, _ => rfl
  | n + 1, a => by simp [Memory.readSeq, Memory.readSeq_length init m n]

/-- `MemRead` reads each unit where it stands (R15). -/
theorem Memory.readSeq_getElem? (init : Nat → α) (m : Memory α) : ∀ (n a j : Nat), j < n →
    (Memory.readSeq init m a n)[j]? = some (Memory.read init m (a + j))
  | n + 1, a, 0, _ => rfl
  | n + 1, a, j + 1, h => by
    simp only [Memory.readSeq, List.getElem?_cons_succ]
    rw [Memory.readSeq_getElem? init m n (a + 1) j (by omega)]
    simp [show a + 1 + j = a + (j + 1) by omega]

/-- What `MemWrite` lists at each address (R15). -/
theorem Memory.find_writeSeq : ∀ (vs : List α) (m : Memory α) (a c : Nat),
    Memory.find (Memory.writeSeq m a vs) c =
      if a ≤ c then (vs[c - a]?).or (Memory.find m c) else Memory.find m c
  | [], m, a, c => by simp [Memory.writeSeq]
  | v :: vs, m, a, c => by
    rw [Memory.writeSeq, Memory.find_writeSeq vs, Memory.find_set]
    by_cases h : c = a
    · subst h; simp
    · by_cases h' : a ≤ c
      · rw [if_pos (by omega), if_neg h, if_pos h', show c - a = c - (a + 1) + 1 by omega]; rfl
      · rw [if_neg (by omega), if_neg h, if_neg h']

/-- A `MemWrite` of what the memory already lists leaves a canonical memory as it is (R135, R164). -/
theorem Memory.writeSeq_of_find {m : Memory α} {a : Nat} {vs : List α} (hm : m.wf = true)
    (h : ∀ j, j < vs.length → Memory.find m (a + j) = vs[j]?) : Memory.writeSeq m a vs = m := by
  refine Memory.eq_of_find (Memory.writeSeq_wf hm) hm (fun c => ?_)
  rw [Memory.find_writeSeq]
  split
  · by_cases hc : c - a < vs.length
    · rw [← h _ hc, show a + (c - a) = c by omega]; simp
    · rw [List.getElem?_eq_none (by omega)]; rfl
  · rfl

/-- Storing again what a place already lists leaves the memory as it is. -/
theorem Memory.set_set (m : List (Nat × α)) (a : Nat) (v w : α) :
    Memory.set (Memory.set m a v) a w = Memory.set m a w := by
  induction m with
  | nil => simp [Memory.set]
  | cons hd rest ih =>
    obtain ⟨b, u⟩ := hd
    by_cases h : a < b
    · simp [Memory.set, h]
    · by_cases h' : a = b
      · subst h'; simp [Memory.set]
      · simp [Memory.set, h, h', ih]

end Sys2Proof.Machine
end

