-- ==== Sys2Proof/Laws/Operands.lean ====
section
/-! SUPPORT. The small lemmas of the pure functions: the lengths of slots and what each byte of a slot is. -/

namespace Sys2Proof.Machine

@[simp] theorem encA_length (p : Pixel) (b : Byte) : (encA p b).length = 4 := rfl

@[simp] theorem encB_length (p : Pixel) : (encB p).length = 12 := by simp [encB]

theorem encB_getElem? (p : Pixel) {j : Nat} (h : j < 12) : (encB p)[j]? = some (slotByteB (wordB p) j) := by
  simp [encB, List.getElem?_range h]

@[simp] theorem rep_length (n : Nat) (v : Byte) : (rep n v).length = n := by simp [rep]

@[simp] theorem busStream_append (t u : List PortEvent) : busStream (t ++ u) = busStream t ++ busStream u := by
  induction t with
  | nil => rfl
  | cons ev rest ih =>
    rcases ev with _ | _ | ⟨bytes, _ | _⟩ <;> simp [busStream, ih]

@[simp] theorem busBits_append (u v : List Byte) : busBits (u ++ v) = busBits u ++ busBits v := by
  induction u with
  | nil => rfl
  | cons x rest ih => simp [busBits, ih]

end Sys2Proof.Machine
end

