-- ==== Sys2Proof/Laws/State.lean ====
section
/-! SUPPORT. What each named update leaves in each field, one lemma a field, so that no proof unfolds a record update. -/

namespace Sys2Proof.Machine

variable (s : State) (e : Encoder) (x : Side)

@[simp] theorem State.enc_A : s.enc .A = s.a := rfl
@[simp] theorem State.enc_B : s.enc .B = s.b := rfl
@[simp] theorem State.setEnc_enc : (s.setEnc x e).enc x = e := by cases x <;> rfl
@[simp] theorem State.setEnc_A_a : (s.setEnc .A e).a = e := rfl
@[simp] theorem State.setEnc_A_b : (s.setEnc .A e).b = s.b := rfl
@[simp] theorem State.setEnc_B_a : (s.setEnc .B e).a = s.a := rfl
@[simp] theorem State.setEnc_B_b : (s.setEnc .B e).b = e := rfl
@[simp] theorem State.setEnc_par : (s.setEnc x e).par = s.par := by cases x <;> rfl
@[simp] theorem State.setEnc_pixA : (s.setEnc x e).pixA = s.pixA := by cases x <;> rfl
@[simp] theorem State.setEnc_wireA : (s.setEnc x e).wireA = s.wireA := by cases x <;> rfl
@[simp] theorem State.setEnc_wireB : (s.setEnc x e).wireB = s.wireB := by cases x <;> rfl
@[simp] theorem State.setEnc_response : (s.setEnc x e).response = s.response := by cases x <;> rfl
@[simp] theorem State.setEnc_host : (s.setEnc x e).host = s.host := by cases x <;> rfl
@[simp] theorem State.setEnc_loaded : (s.setEnc x e).loaded = s.loaded := by cases x <;> rfl
@[simp] theorem State.setEnc_setEnc (e' : Encoder) : (s.setEnc x e).setEnc x e' = s.setEnc x e' := by cases x <;> rfl
@[simp] theorem State.setEnc_self : s.setEnc x (s.enc x) = s := by cases x <;> rfl

@[simp] theorem State.returnOk_par (data : BitVec 32) : (s.returnOk data).par = s.par := rfl
@[simp] theorem State.returnOk_a (data : BitVec 32) : (s.returnOk data).a = s.a := rfl
@[simp] theorem State.returnOk_b (data : BitVec 32) : (s.returnOk data).b = s.b := rfl
@[simp] theorem State.returnOk_pixA (data : BitVec 32) : (s.returnOk data).pixA = s.pixA := rfl
@[simp] theorem State.returnOk_wireA (data : BitVec 32) : (s.returnOk data).wireA = s.wireA := rfl
@[simp] theorem State.returnOk_wireB (data : BitVec 32) : (s.returnOk data).wireB = s.wireB := rfl
@[simp] theorem State.returnOk_response (data : BitVec 32) : (s.returnOk data).response = some (okResponse data) := rfl
@[simp] theorem State.returnOk_host (data : BitVec 32) : (s.returnOk data).host = s.host := rfl
@[simp] theorem State.returnOk_loaded (data : BitVec 32) : (s.returnOk data).loaded = s.loaded := rfl

@[simp] theorem State.raise_par (r : Exn) : (s.raise r).par = s.par := rfl
@[simp] theorem State.raise_a (r : Exn) : (s.raise r).a = s.a := rfl
@[simp] theorem State.raise_b (r : Exn) : (s.raise r).b = s.b := rfl
@[simp] theorem State.raise_pixA (r : Exn) : (s.raise r).pixA = s.pixA := rfl
@[simp] theorem State.raise_wireA (r : Exn) : (s.raise r).wireA = s.wireA := rfl
@[simp] theorem State.raise_wireB (r : Exn) : (s.raise r).wireB = s.wireB := rfl
@[simp] theorem State.raise_response (r : Exn) : (s.raise r).response = some r.response := rfl
@[simp] theorem State.raise_host (r : Exn) : (s.raise r).host = s.host := rfl
@[simp] theorem State.raise_loaded (r : Exn) : (s.raise r).loaded = s.loaded := rfl

@[simp] theorem State.storeSlotA_par (k : Nat) (p : Pixel) (v : Byte) : (s.storeSlotA k p v).par = s.par := rfl
@[simp] theorem State.storeSlotA_a (k : Nat) (p : Pixel) (v : Byte) : (s.storeSlotA k p v).a = s.a := rfl
@[simp] theorem State.storeSlotA_b (k : Nat) (p : Pixel) (v : Byte) : (s.storeSlotA k p v).b = s.b := rfl
@[simp] theorem State.storeSlotA_pixA (k : Nat) (p : Pixel) (v : Byte) : (s.storeSlotA k p v).pixA = s.pixA := rfl
@[simp] theorem State.storeSlotA_wireA (k : Nat) (p : Pixel) (v : Byte) : (s.storeSlotA k p v).wireA = Memory.writeSeq s.wireA (slotAddrA k) (encA p v) := rfl
@[simp] theorem State.storeSlotA_wireB (k : Nat) (p : Pixel) (v : Byte) : (s.storeSlotA k p v).wireB = s.wireB := rfl
@[simp] theorem State.storeSlotA_response (k : Nat) (p : Pixel) (v : Byte) : (s.storeSlotA k p v).response = s.response := rfl
@[simp] theorem State.storeSlotA_host (k : Nat) (p : Pixel) (v : Byte) : (s.storeSlotA k p v).host = s.host := rfl
@[simp] theorem State.storeSlotA_loaded (k : Nat) (p : Pixel) (v : Byte) : (s.storeSlotA k p v).loaded = s.loaded := rfl

@[simp] theorem State.storeSlotB_par (k : Nat) (p : Pixel) : (s.storeSlotB k p).par = s.par := rfl
@[simp] theorem State.storeSlotB_a (k : Nat) (p : Pixel) : (s.storeSlotB k p).a = s.a := rfl
@[simp] theorem State.storeSlotB_b (k : Nat) (p : Pixel) : (s.storeSlotB k p).b = s.b := rfl
@[simp] theorem State.storeSlotB_pixA (k : Nat) (p : Pixel) : (s.storeSlotB k p).pixA = s.pixA := rfl
@[simp] theorem State.storeSlotB_wireA (k : Nat) (p : Pixel) : (s.storeSlotB k p).wireA = s.wireA := rfl
@[simp] theorem State.storeSlotB_wireB (k : Nat) (p : Pixel) : (s.storeSlotB k p).wireB = Memory.writeSeq s.wireB (slotAddrB k) (encB p) := rfl
@[simp] theorem State.storeSlotB_response (k : Nat) (p : Pixel) : (s.storeSlotB k p).response = s.response := rfl
@[simp] theorem State.storeSlotB_host (k : Nat) (p : Pixel) : (s.storeSlotB k p).host = s.host := rfl
@[simp] theorem State.storeSlotB_loaded (k : Nat) (p : Pixel) : (s.storeSlotB k p).loaded = s.loaded := rfl

@[simp] theorem State.withHost_par (rest : List HostAction) : (s.withHost rest).par = s.par := rfl
@[simp] theorem State.withHost_a (rest : List HostAction) : (s.withHost rest).a = s.a := rfl
@[simp] theorem State.withHost_b (rest : List HostAction) : (s.withHost rest).b = s.b := rfl
@[simp] theorem State.withHost_pixA (rest : List HostAction) : (s.withHost rest).pixA = s.pixA := rfl
@[simp] theorem State.withHost_wireA (rest : List HostAction) : (s.withHost rest).wireA = s.wireA := rfl
@[simp] theorem State.withHost_wireB (rest : List HostAction) : (s.withHost rest).wireB = s.wireB := rfl
@[simp] theorem State.withHost_response (rest : List HostAction) : (s.withHost rest).response = s.response := rfl
@[simp] theorem State.withHost_host (rest : List HostAction) : (s.withHost rest).host = rest := rfl
@[simp] theorem State.withHost_loaded (rest : List HostAction) : (s.withHost rest).loaded = s.loaded := rfl

@[simp] theorem State.issue_par (rest : List HostAction) : (s.issue rest).par = s.par := rfl
@[simp] theorem State.issue_a (rest : List HostAction) : (s.issue rest).a = s.a := rfl
@[simp] theorem State.issue_b (rest : List HostAction) : (s.issue rest).b = s.b := rfl
@[simp] theorem State.issue_pixA (rest : List HostAction) : (s.issue rest).pixA = s.pixA := rfl
@[simp] theorem State.issue_wireA (rest : List HostAction) : (s.issue rest).wireA = s.wireA := rfl
@[simp] theorem State.issue_wireB (rest : List HostAction) : (s.issue rest).wireB = s.wireB := rfl
@[simp] theorem State.issue_response (rest : List HostAction) : (s.issue rest).response = none := rfl
@[simp] theorem State.issue_host (rest : List HostAction) : (s.issue rest).host = rest := rfl
@[simp] theorem State.issue_loaded (rest : List HostAction) : (s.issue rest).loaded = s.loaded := rfl

@[simp] theorem State.returnOk_enc (data : BitVec 32) : (s.returnOk data).enc x = s.enc x := by cases x <;> rfl
@[simp] theorem State.raise_enc (r : Exn) : (s.raise r).enc x = s.enc x := by cases x <;> rfl
@[simp] theorem State.issue_enc (rest : List HostAction) : (s.issue rest).enc x = s.enc x := by cases x <;> rfl
@[simp] theorem State.withHost_enc (rest : List HostAction) : (s.withHost rest).enc x = s.enc x := by cases x <;> rfl

@[simp] theorem Encoder.emit_seq (ev : PortEvent) : (e.emit ev).seq = e.seq := rfl
@[simp] theorem Encoder.emit_phase (ev : PortEvent) : (e.emit ev).phase = e.phase := rfl
@[simp] theorem Encoder.emit_cfg (ev : PortEvent) : (e.emit ev).cfg = e.cfg := rfl
@[simp] theorem Encoder.emit_cs (ev : PortEvent) : (e.emit ev).cs = e.cs := rfl
@[simp] theorem Encoder.emit_trace (ev : PortEvent) : (e.emit ev).trace = e.trace ++ [ev] := rfl
@[simp] theorem Encoder.emit_busCfg (ev : PortEvent) : (e.emit ev).busCfg = e.busCfg := rfl
@[simp] theorem Encoder.emit_replies (ev : PortEvent) : (e.emit ev).replies = e.replies := rfl
@[simp] theorem Encoder.emit_draws (ev : PortEvent) : (e.emit ev).draws = e.draws := rfl
@[simp] theorem Encoder.emit_onBus (ev : PortEvent) : (e.emit ev).onBus = e.onBus := rfl

@[simp] theorem Encoder.configure_seq (hz : Nat) (m : BusMode) : (e.configure hz m).seq = e.seq := rfl
@[simp] theorem Encoder.configure_phase (hz : Nat) (m : BusMode) : (e.configure hz m).phase = e.phase := rfl
@[simp] theorem Encoder.configure_cfg (hz : Nat) (m : BusMode) : (e.configure hz m).cfg = true := rfl
@[simp] theorem Encoder.configure_cs (hz : Nat) (m : BusMode) : (e.configure hz m).cs = e.cs := rfl
@[simp] theorem Encoder.configure_trace (hz : Nat) (m : BusMode) : (e.configure hz m).trace = e.trace ++ [.configure hz m] := rfl
@[simp] theorem Encoder.configure_busCfg (hz : Nat) (m : BusMode) : (e.configure hz m).busCfg = some ⟨hz, m⟩ := rfl
@[simp] theorem Encoder.configure_replies (hz : Nat) (m : BusMode) : (e.configure hz m).replies = e.replies := rfl
@[simp] theorem Encoder.configure_draws (hz : Nat) (m : BusMode) : (e.configure hz m).draws = e.draws := rfl
@[simp] theorem Encoder.configure_onBus (hz : Nat) (m : BusMode) : (e.configure hz m).onBus = e.onBus := rfl

@[simp] theorem Encoder.begin_seq : (e.begin).seq = .selecting := rfl
@[simp] theorem Encoder.begin_phase : (e.begin).phase = e.phase := rfl
@[simp] theorem Encoder.begin_cfg : (e.begin).cfg = e.cfg := rfl
@[simp] theorem Encoder.begin_cs : (e.begin).cs = e.cs := rfl
@[simp] theorem Encoder.begin_trace : (e.begin).trace = e.trace := rfl
@[simp] theorem Encoder.begin_busCfg : (e.begin).busCfg = e.busCfg := rfl
@[simp] theorem Encoder.begin_replies : (e.begin).replies = e.replies := rfl
@[simp] theorem Encoder.begin_draws : (e.begin).draws = e.draws := rfl
@[simp] theorem Encoder.begin_onBus : (e.begin).onBus = e.onBus := rfl

@[simp] theorem Encoder.countWrite_seq : (e.countWrite).seq = e.seq := rfl
@[simp] theorem Encoder.countWrite_phase : (e.countWrite).phase = e.phase + 1 := rfl
@[simp] theorem Encoder.countWrite_cfg : (e.countWrite).cfg = e.cfg := rfl
@[simp] theorem Encoder.countWrite_cs : (e.countWrite).cs = e.cs := rfl
@[simp] theorem Encoder.countWrite_trace : (e.countWrite).trace = e.trace := rfl
@[simp] theorem Encoder.countWrite_busCfg : (e.countWrite).busCfg = e.busCfg := rfl
@[simp] theorem Encoder.countWrite_replies : (e.countWrite).replies = e.replies := rfl
@[simp] theorem Encoder.countWrite_draws : (e.countWrite).draws = e.draws := rfl
@[simp] theorem Encoder.countWrite_onBus : (e.countWrite).onBus = e.onBus := rfl

@[simp] theorem Encoder.writesDone_seq : (e.writesDone).seq = .deselecting := rfl
@[simp] theorem Encoder.writesDone_phase : (e.writesDone).phase = 0 := rfl
@[simp] theorem Encoder.writesDone_cfg : (e.writesDone).cfg = e.cfg := rfl
@[simp] theorem Encoder.writesDone_cs : (e.writesDone).cs = e.cs := rfl
@[simp] theorem Encoder.writesDone_trace : (e.writesDone).trace = e.trace := rfl
@[simp] theorem Encoder.writesDone_busCfg : (e.writesDone).busCfg = e.busCfg := rfl
@[simp] theorem Encoder.writesDone_replies : (e.writesDone).replies = e.replies := rfl
@[simp] theorem Encoder.writesDone_draws : (e.writesDone).draws = e.draws := rfl
@[simp] theorem Encoder.writesDone_onBus : (e.writesDone).onBus = e.onBus := rfl

@[simp] theorem Encoder.setLevel_seq (c l : Bool) : (e.setLevel c l).seq = e.seq := by
  cases c <;> rfl
@[simp] theorem Encoder.setLevel_phase (c l : Bool) : (e.setLevel c l).phase = e.phase := by
  cases c <;> rfl
@[simp] theorem Encoder.setLevel_cfg (c l : Bool) : (e.setLevel c l).cfg = e.cfg := by
  cases c <;> rfl
@[simp] theorem Encoder.setLevel_cs (c l : Bool) : (e.setLevel c l).cs = if c then .driven l else e.cs := by
  cases c <;> rfl
@[simp] theorem Encoder.setLevel_trace (c l : Bool) : (e.setLevel c l).trace = if c then e.trace ++ [.setLevel l] else e.trace := by
  cases c <;> rfl
@[simp] theorem Encoder.setLevel_busCfg (c l : Bool) : (e.setLevel c l).busCfg = e.busCfg := by
  cases c <;> rfl
@[simp] theorem Encoder.setLevel_replies (c l : Bool) : (e.setLevel c l).replies = e.replies := by
  cases c <;> rfl
@[simp] theorem Encoder.setLevel_draws (c l : Bool) : (e.setLevel c l).draws = e.draws := by
  cases c <;> rfl
@[simp] theorem Encoder.setLevel_onBus (c l : Bool) : (e.setLevel c l).onBus = e.onBus := by
  cases c <;> rfl

@[simp] theorem Encoder.select_seq (c : Bool) : (e.select c).seq = .transmitting := by
  cases c <;> rfl
@[simp] theorem Encoder.select_phase (c : Bool) : (e.select c).phase = 0 := by
  cases c <;> rfl
@[simp] theorem Encoder.select_cfg (c : Bool) : (e.select c).cfg = e.cfg := by
  cases c <;> rfl
@[simp] theorem Encoder.select_cs (c : Bool) : (e.select c).cs = if c then .driven false else e.cs := by
  cases c <;> rfl
@[simp] theorem Encoder.select_trace (c : Bool) : (e.select c).trace = if c then e.trace ++ [.setLevel false] else e.trace := by
  cases c <;> rfl
@[simp] theorem Encoder.select_busCfg (c : Bool) : (e.select c).busCfg = e.busCfg := by
  cases c <;> rfl
@[simp] theorem Encoder.select_replies (c : Bool) : (e.select c).replies = e.replies := by
  cases c <;> rfl
@[simp] theorem Encoder.select_draws (c : Bool) : (e.select c).draws = e.draws := by
  cases c <;> rfl
@[simp] theorem Encoder.select_onBus (c : Bool) : (e.select c).onBus = e.onBus := by
  cases c <;> rfl

@[simp] theorem Encoder.deselect_seq (c : Bool) : (e.deselect c).seq = .idle := by
  cases c <;> rfl
@[simp] theorem Encoder.deselect_phase (c : Bool) : (e.deselect c).phase = e.phase := by
  cases c <;> rfl
@[simp] theorem Encoder.deselect_cfg (c : Bool) : (e.deselect c).cfg = e.cfg := by
  cases c <;> rfl
@[simp] theorem Encoder.deselect_cs (c : Bool) : (e.deselect c).cs = if c then .driven true else e.cs := by
  cases c <;> rfl
@[simp] theorem Encoder.deselect_trace (c : Bool) : (e.deselect c).trace = if c then e.trace ++ [.setLevel true] else e.trace := by
  cases c <;> rfl
@[simp] theorem Encoder.deselect_busCfg (c : Bool) : (e.deselect c).busCfg = e.busCfg := by
  cases c <;> rfl
@[simp] theorem Encoder.deselect_replies (c : Bool) : (e.deselect c).replies = e.replies := by
  cases c <;> rfl
@[simp] theorem Encoder.deselect_draws (c : Bool) : (e.deselect c).draws = e.draws := by
  cases c <;> rfl
@[simp] theorem Encoder.deselect_onBus (c : Bool) : (e.deselect c).onBus = e.onBus := by
  cases c <;> rfl

@[simp] theorem Encoder.dropReply_seq : e.dropReply.seq = e.seq := by
  unfold Encoder.dropReply; split <;> rfl
@[simp] theorem Encoder.dropReply_phase : e.dropReply.phase = e.phase := by
  unfold Encoder.dropReply; split <;> rfl
@[simp] theorem Encoder.dropReply_cfg : e.dropReply.cfg = e.cfg := by
  unfold Encoder.dropReply; split <;> rfl
@[simp] theorem Encoder.dropReply_cs : e.dropReply.cs = e.cs := by
  unfold Encoder.dropReply; split <;> rfl
@[simp] theorem Encoder.dropReply_trace : e.dropReply.trace = e.trace := by
  unfold Encoder.dropReply; split <;> rfl
@[simp] theorem Encoder.dropReply_busCfg : e.dropReply.busCfg = e.busCfg := by
  unfold Encoder.dropReply; split <;> rfl
@[simp] theorem Encoder.dropReply_onBus : e.dropReply.onBus = e.onBus := by
  unfold Encoder.dropReply; split <;> rfl

@[simp] theorem Encoder.abort_seq (p : Params) : (e.abort p x).seq = .idle := by
  cases h : p.csOnError <;> cases h' : p.hasCs x <;>
    simp [Encoder.abort, Encoder.setLevel, Encoder.emit, h, h']
@[simp] theorem Encoder.abort_phase (p : Params) : (e.abort p x).phase = 0 := by
  cases h : p.csOnError <;> cases h' : p.hasCs x <;>
    simp [Encoder.abort, Encoder.setLevel, Encoder.emit, h, h']
@[simp] theorem Encoder.abort_cfg (p : Params) : (e.abort p x).cfg = e.cfg := by
  cases h : p.csOnError <;> cases h' : p.hasCs x <;>
    simp [Encoder.abort, Encoder.setLevel, Encoder.emit, h, h']
@[simp] theorem Encoder.abort_cs (p : Params) : (e.abort p x).cs = if releasesCs p x then .driven true else e.cs := by
  cases h : p.csOnError <;> cases h' : p.hasCs x <;>
    simp [Encoder.abort, releasesCs, Encoder.setLevel, Encoder.emit, h, h']
@[simp] theorem Encoder.abort_trace (p : Params) : (e.abort p x).trace = if releasesCs p x then e.trace ++ [.setLevel true] else e.trace := by
  cases h : p.csOnError <;> cases h' : p.hasCs x <;>
    simp [Encoder.abort, releasesCs, Encoder.setLevel, Encoder.emit, h, h']
@[simp] theorem Encoder.abort_busCfg (p : Params) : (e.abort p x).busCfg = e.busCfg := by
  cases h : p.csOnError <;> cases h' : p.hasCs x <;>
    simp [Encoder.abort, Encoder.setLevel, Encoder.emit, h, h']
@[simp] theorem Encoder.abort_replies (p : Params) : (e.abort p x).replies = e.replies := by
  cases h : p.csOnError <;> cases h' : p.hasCs x <;>
    simp [Encoder.abort, Encoder.setLevel, Encoder.emit, h, h']
@[simp] theorem Encoder.abort_draws (p : Params) : (e.abort p x).draws = e.draws := by
  cases h : p.csOnError <;> cases h' : p.hasCs x <;>
    simp [Encoder.abort, Encoder.setLevel, Encoder.emit, h, h']
@[simp] theorem Encoder.abort_onBus (p : Params) : (e.abort p x).onBus = e.onBus := by
  cases h : p.csOnError <;> cases h' : p.hasCs x <;>
    simp [Encoder.abort, Encoder.setLevel, Encoder.emit, h, h']

end Sys2Proof.Machine
end

