-- ==== Sys2Proof/Laws/Ops.lean ====
section
/-! SUPPORT. One lemma for each shared operation that says once everything it can do; the provers cite these instead of
unfolding the operation. -/

namespace Sys2Proof.Machine

/-- Everything one transport write can do (R184, R188, R71): it succeeds, it fails, or it gets no answer. -/
theorem Encoder.write_cases (x : Side) (bytes : List Byte) (e : Encoder) :
    (e.nextReply x = .ok ∧ e.write x bytes =
      some (.ok, { e.dropReply.emit (.write bytes .ok) with onBus := e.onBus ++ bytes })) ∨
    (∃ t sent, e.nextReply x = .err t sent ∧ e.write x bytes =
      some (.err t, { e.dropReply.emit (.write bytes (.err t)) with onBus := e.onBus ++ bytes.take sent })) ∨
    (e.nextReply x = .never ∧ e.write x bytes = none) := by
  unfold Encoder.write
  cases h : e.nextReply x with
  | ok => exact .inl ⟨rfl, rfl⟩
  | err t sent => exact .inr (.inl ⟨t, sent, rfl, rfl⟩)
  | never => exact .inr (.inr ⟨rfl, rfl⟩)

/-- Everything the write loop can do with a next write (R128, R186, R71). -/
theorem Encoder.sendAll_cons (p : Params) (x : Side) (bytes : List Byte) (rest : List (List Byte)) (e : Encoder) :
    (e.nextReply x = .ok ∧ Encoder.sendAll p x (bytes :: rest) e = Encoder.sendAll p x rest
      ({ e.dropReply.emit (.write bytes .ok) with onBus := e.onBus ++ bytes } : Encoder).countWrite) ∨
    (∃ t sent, e.nextReply x = .err t sent ∧ Encoder.sendAll p x (bytes :: rest) e =
      (({ e.dropReply.emit (.write bytes (.err t)) with onBus := e.onBus ++ bytes.take sent } : Encoder).abort p x,
        .failed t)) ∨
    (e.nextReply x = .never ∧ Encoder.sendAll p x (bytes :: rest) e = (e, .hung)) := by
  rcases Encoder.write_cases x bytes e with ⟨h, hw⟩ | ⟨t, n, h, hw⟩ | ⟨h, hw⟩
  · exact .inl ⟨h, by simp [Encoder.sendAll, hw]⟩
  · exact .inr (.inl ⟨t, n, h, by simp [Encoder.sendAll, hw]⟩)
  · exact .inr (.inr ⟨h, by simp [Encoder.sendAll, hw]⟩)

/-- A transmit changes nothing but its encoder and the response. -/
theorem State.transmit_frame (x : Side) (s : State) :
    ∃ e r, s.transmit x = { s.setEnc x e with response := r } := by
  unfold State.transmit
  split
  · generalize Encoder.sendAll s.par x (s.frame x) _ = q
    obtain ⟨e, fin⟩ := q
    cases fin with
    | done => exact ⟨e, some (okResponse 0), rfl⟩
    | failed t => exact ⟨e, some (Exn.transportError t).response, rfl⟩
    | hung => exact ⟨e, s.response, by cases x <;> rfl⟩
  · exact ⟨s.enc x, some Exn.notConfigured.response, by cases x <;> rfl⟩

/-- `A.ENCALL`'s loop changes nothing but `WIRE_A`. -/
theorem State.encodeLeading_frame (v : Byte) : ∀ (n : Nat) (s : State),
    ∃ m, s.encodeLeading v n = { s with wireA := m }
  | 0, s => ⟨s.wireA, rfl⟩
  | n + 1, s => by
    obtain ⟨m, hm⟩ := State.encodeLeading_frame v n s
    exact ⟨_, by simp only [State.encodeLeading, hm]; rfl⟩

/-- `B.ENCRNG`'s loop changes nothing but `WIRE_B`. -/
theorem State.fillSlots_frame (p : Pixel) (start : Nat) : ∀ (n : Nat) (s : State),
    ∃ m, s.fillSlots p start n = { s with wireB := m }
  | 0, s => ⟨s.wireB, rfl⟩
  | n + 1, s => by
    obtain ⟨m, hm⟩ := State.fillSlots_frame p start n s
    exact ⟨_, by simp only [State.fillSlots, hm]; rfl⟩

/-- A range command changes nothing but `WIRE_B` and the response. -/
theorem State.encodeRange_frame (p : Pixel) (start stop : Nat) (s : State) :
    ∃ m r, s.encodeRange p start stop = { s with wireB := m, response := r } := by
  unfold State.encodeRange
  split
  · exact ⟨s.wireB, _, rfl⟩
  · obtain ⟨m, hm⟩ := s.fillSlots_frame p start (stop + 1 - start)
    exact ⟨m, _, by rw [hm]; rfl⟩

/-- Everything one step of a sequencer can do (R129, R157). -/
theorem seqStep_cases (x : Side) (s t : State) (h : seqStep x s = .next t) :
    ((s.enc x).seq = .selecting ∧ t = s.setEnc x ((s.enc x).select (s.par.hasCs x))) ∨
    ((s.enc x).seq = .transmitting ∧ ∃ bytes, (s.frame x)[(s.enc x).phase]? = some bytes ∧
      (s.enc x).nextReply x = .ok ∧ t = s.setEnc x (({ (s.enc x).dropReply.emit (.write bytes .ok) with
        onBus := (s.enc x).onBus ++ bytes } : Encoder).countWrite)) ∨
    ((s.enc x).seq = .transmitting ∧ ∃ bytes r sent, (s.frame x)[(s.enc x).phase]? = some bytes ∧
      (s.enc x).nextReply x = .err r sent ∧ t = (s.setEnc x (({ (s.enc x).dropReply.emit (.write bytes (.err r)) with
        onBus := (s.enc x).onBus ++ bytes.take sent } : Encoder).abort s.par x)).raise (.transportError r)) ∨
    ((s.enc x).seq = .transmitting ∧ (s.enc x).phase = (s.frame x).length ∧ t = s.setEnc x (s.enc x).writesDone) ∨
    ((s.enc x).seq = .deselecting ∧ t = (s.setEnc x ((s.enc x).deselect (s.par.hasCs x))).returnOk 0) := by
  unfold seqStep at h
  cases hs : (s.enc x).seq <;> simp only [hs] at h
  · cases h
  · cases h; simp
  · cases hf : (s.frame x)[(s.enc x).phase]? with
    | none =>
      simp only [hf] at h
      split at h
      · cases h; simp [*]
      · cases h
    | some bytes =>
      simp only [hf, seqWrite] at h
      rcases (s.enc x).write_cases x bytes with ⟨h', hw⟩ | ⟨r, n, h', hw⟩ | ⟨h', hw⟩ <;> rw [hw] at h <;> cases h
      · exact .inr (.inl ⟨rfl, bytes, rfl, h', rfl⟩)
      · exact .inr (.inr (.inl ⟨rfl, bytes, r, n, rfl, h', rfl⟩))
  · cases h; simp

/-- An access of the host that goes through lies inside its space. -/
theorem guardAddress_next {space : Space} {a size : Nat} {u t : State} (h : guardAddress space a size u = .next t) :
    a < size ∧ t = u := by
  unfold guardAddress at h
  split at h
  · cases h; exact ⟨by assumption, rfl⟩
  · cases h

/-- Running an illegal word is refused (R183); any other word runs its command. -/
theorem runWord_cases (w : CmdWord) (s : State) :
    (∃ i, decode w = .ok i ∧ runWord w s = exec i s) ∨
    (∃ e, decode w = .error e ∧ runWord w s = .next (s.raise .illegalCommand)) := by
  unfold runWord
  cases h : decode w with
  | ok i => exact .inl ⟨i, rfl, rfl⟩
  | error e => exact .inr ⟨e, rfl, rfl⟩

/-- Everything a command of encoder A or B can change: its own encoder and memory, and the response. -/
theorem exec_frame (i : Instr) (s : State) :
    ∃ e m r, (i.side = .A ∧ exec i s = .next { s with a := e, wireA := m, response := r }) ∨
      (i.side = .B ∧ exec i s = .next { s with b := e, wireB := m, response := r }) := by
  cases i with
  | aInit => exact ⟨_, s.wireA, _, .inl ⟨rfl, rfl⟩⟩
  | aHdr b => exact ⟨s.a, s.wireA, _, .inl ⟨rfl, rfl⟩⟩
  | aEncPx p b => exact ⟨s.a, s.wireA, _, .inl ⟨rfl, rfl⟩⟩
  | aEnc1 p b k =>
    simp only [exec, execAEnc1]
    split
    · exact ⟨s.a, _, _, .inl ⟨rfl, rfl⟩⟩
    · exact ⟨s.a, s.wireA, _, .inl ⟨rfl, rfl⟩⟩
  | aEncAll b n =>
    obtain ⟨m, hm⟩ := s.encodeLeading_frame b (min n s.par.nA)
    exact ⟨s.a, m, _, .inl ⟨rfl, by simp only [exec, execAEncAll, hm]; rfl⟩⟩
  | aTx =>
    obtain ⟨e, r, h⟩ := s.transmit_frame .A
    exact ⟨e, s.wireA, r, .inl ⟨rfl, by simp only [exec, execATx, h]; rfl⟩⟩
  | bInit => exact ⟨_, s.wireB, _, .inr ⟨rfl, rfl⟩⟩
  | bEncRng p k n =>
    obtain ⟨m, r, h⟩ := s.encodeRange_frame p k n
    exact ⟨s.b, m, r, .inr ⟨rfl, by simp only [exec, execBEncRng, h]⟩⟩
  | bEncAll p =>
    obtain ⟨m, r, h⟩ := s.encodeRange_frame p 0 (s.par.nB - 1)
    exact ⟨s.b, m, r, .inr ⟨rfl, by simp only [exec, execBEncAll, h]⟩⟩
  | bTx =>
    obtain ⟨e, r, h⟩ := s.transmit_frame .B
    exact ⟨e, s.wireB, r, .inr ⟨rfl, by simp only [exec, execBTx, h]; rfl⟩⟩

end Sys2Proof.Machine
end

