-- ==== Sys2Proof/Laws/Slots.lean ====
section
/-! SUPPORT. What the two encode loops leave at each byte, and what a transmit's body reads: the facts every statement about
an encode command is built from. -/

namespace Sys2Proof.Machine

/-- One slot of `WIRE_A` stored: its four bytes, and every other byte as before. -/
theorem State.storeSlotA_readWireA (s : State) (k : Nat) (p : Pixel) (v : Byte) (a : Nat) :
    (s.storeSlotA k p v).readWireA a =
      if slotAddrA k ≤ a then ((encA p v)[a - slotAddrA k]?).getD (s.readWireA a) else s.readWireA a := by
  simp [State.readWireA, Memory.read_writeSeq]

/-- One slot of `WIRE_B` stored: its twelve bytes, and every other byte as before. -/
theorem State.storeSlotB_readWireB (s : State) (k : Nat) (p : Pixel) (a : Nat) :
    (s.storeSlotB k p).readWireB a =
      if slotAddrB k ≤ a then ((encB p)[a - slotAddrB k]?).getD (s.readWireB a) else s.readWireB a := by
  simp [State.readWireB, Memory.read_writeSeq]

@[simp] theorem State.storeSlotA_readPixA (s : State) (k : Nat) (p : Pixel) (v : Byte) (j : Nat) :
    (s.storeSlotA k p v).readPixA j = s.readPixA j := rfl

@[simp] theorem State.encodeLeading_readPixA (s : State) (v : Byte) : ∀ (n j : Nat),
    (s.encodeLeading v n).readPixA j = s.readPixA j
  | 0, _ => rfl
  | n + 1, j => by simp [State.encodeLeading, State.encodeLeading_readPixA s v n]

/-- Past the slots it encodes, `A.ENCALL` leaves every byte (R127). -/
theorem State.encodeLeading_readWireA_after (s : State) (v : Byte) : ∀ (n a : Nat), slotAddrA n ≤ a →
    (s.encodeLeading v n).readWireA a = s.readWireA a
  | 0, _, _ => rfl
  | n + 1, a, h => by
    unfold slotAddrA at h
    simp only [State.encodeLeading, State.storeSlotA_readWireA]
    rw [State.encodeLeading_readWireA_after s v n a (by unfold slotAddrA; omega),
      List.getElem?_eq_none (by simp [slotAddrA]; omega)]
    simp

/-- Byte `j` of each slot `A.ENCALL` encodes is byte `j` of its pixel's encoding (R127). -/
theorem State.encodeLeading_readWireA_slot (s : State) (v : Byte) : ∀ (n k j : Nat), k < n → (hj : j < 4) →
    (encA (s.readPixA k) v)[j]? = some ((s.encodeLeading v n).readWireA (slotAddrA k + j))
  | n + 1, k, j, hk, hj => by
    simp only [State.encodeLeading, State.storeSlotA_readWireA, State.encodeLeading_readPixA]
    by_cases h : k = n
    · subst h
      rw [if_pos (by omega), show slotAddrA k + j - slotAddrA k = j by omega,
        List.getElem?_eq_getElem (by simpa using hj)]
      rfl
    · rw [if_neg (by unfold slotAddrA; omega)]
      exact State.encodeLeading_readWireA_slot s v n k j (by omega) hj

/-- Outside the slots it fills, `B.ENCRNG` leaves every byte (R154). -/
theorem State.fillSlots_readWireB_outside (s : State) (p : Pixel) (start : Nat) : ∀ (n a : Nat),
    a < slotAddrB start ∨ slotAddrB (start + n) ≤ a → (s.fillSlots p start n).readWireB a = s.readWireB a
  | 0, _, _ => rfl
  | n + 1, a, h => by
    unfold slotAddrB at h
    simp only [State.fillSlots, State.storeSlotB_readWireB]
    rw [State.fillSlots_readWireB_outside s p start n a (by unfold slotAddrB; omega)]
    split
    · rw [List.getElem?_eq_none (by simp [slotAddrB] at *; omega)]; rfl
    · rfl

/-- Byte `j` of each slot `B.ENCRNG` fills is byte `j` of the pixel's encoding (R154). -/
theorem State.fillSlots_readWireB_slot (s : State) (p : Pixel) (start : Nat) : ∀ (n k j : Nat),
    start ≤ k → k < start + n → (hj : j < 12) →
    (encB p)[j]? = some ((s.fillSlots p start n).readWireB (slotAddrB k + j))
  | 0, k, j, h, h', _ => by omega
  | n + 1, k, j, h, h', hj => by
    simp only [State.fillSlots, State.storeSlotB_readWireB]
    by_cases hk : k = start + n
    · subst hk
      rw [if_pos (by omega), show slotAddrB (start + n) + j - slotAddrB (start + n) = j by omega,
        List.getElem?_eq_getElem (by simpa using hj)]
      rfl
    · rw [if_neg (by unfold slotAddrB; omega)]
      exact State.fillSlots_readWireB_slot s p start n k j h (by omega) hj

@[simp] theorem State.bodyA_length (s : State) : s.bodyA.length = 4 * s.par.nA := by simp [State.bodyA, sizeWireA]

@[simp] theorem State.bodyB_length (s : State) : s.bodyB.length = 12 * s.par.nB := by simp [State.bodyB, sizeWireB]

/-- A transmit sends each byte of `WIRE_A` as it stands (R128). -/
theorem State.bodyA_getElem? (s : State) {a : Nat} (h : a < 4 * s.par.nA) : s.bodyA[a]? = some (s.readWireA a) := by
  rw [State.bodyA, sizeWireA, Memory.readSeq_getElem? _ _ _ _ _ h, Nat.zero_add]; rfl

/-- A transmit sends each byte of `WIRE_B` as it stands (R156). -/
theorem State.bodyB_getElem? (s : State) {a : Nat} (h : a < 12 * s.par.nB) : s.bodyB[a]? = some (s.readWireB a) := by
  rw [State.bodyB, sizeWireB, Memory.readSeq_getElem? _ _ _ _ _ h, Nat.zero_add]; rfl

/-- The frame a transmit sends has as many writes as its phase counter counts (R32). -/
@[simp] theorem State.frame_A_length (s : State) : (s.frame .A).length = 3 := rfl
@[simp] theorem State.frame_B_length (s : State) : (s.frame .B).length = 1 := rfl

/-- The frame depends on the memories and the parameters only. -/
@[simp] theorem State.frame_setEnc (s : State) (x y : Side) (e : Encoder) : (s.setEnc x e).frame y = s.frame y := by
  cases x <;> cases y <;> rfl

end Sys2Proof.Machine
end

