-- ==== Sys2Proof/Laws/Transmit.lean ====
section
/-! SUPPORT. What a run of successful writes does to an encoder, said once: the write loop of a transmit passes over any
prefix of its frame that the transport accepts. -/

namespace Sys2Proof.Machine

/-- Replies depend on the transport's list and counter only. -/
theorem Encoder.nextReply_congr {x : Side} {e e' : Encoder} (hr : e.replies = e'.replies) (hd : e.draws = e'.draws) :
    e.nextReply x = e'.nextReply x := by
  unfold Encoder.nextReply; rw [hr, hd]

theorem Encoder.dropReply_congr {e e' : Encoder} (hr : e.replies = e'.replies) (hd : e.draws = e'.draws) :
    e.dropReply.replies = e'.dropReply.replies ∧ e.dropReply.draws = e'.dropReply.draws := by
  unfold Encoder.dropReply
  rw [← hr]
  split
  · exact ⟨rfl, hd⟩
  · exact ⟨by simp, by simpa using hd⟩

theorem Encoder.afterReplies_congr : ∀ (n : Nat) {e e' : Encoder}, e.replies = e'.replies → e.draws = e'.draws →
    (e.afterReplies n).replies = (e'.afterReplies n).replies ∧ (e.afterReplies n).draws = (e'.afterReplies n).draws
  | 0, _, _, hr, hd => ⟨hr, hd⟩
  | n + 1, _, _, hr, hd =>
    have h := Encoder.dropReply_congr hr hd
    Encoder.afterReplies_congr n h.1 h.2

theorem Encoder.replyAt_congr {x : Side} {e e' : Encoder} (n : Nat) (hr : e.replies = e'.replies)
    (hd : e.draws = e'.draws) : e.replyAt x n = e'.replyAt x n :=
  have h := Encoder.afterReplies_congr n hr hd
  Encoder.nextReply_congr h.1 h.2

/-- The last of `n + 1` replies. -/
theorem Encoder.afterReplies_succ : ∀ (n : Nat) (e : Encoder), e.afterReplies (n + 1) = (e.afterReplies n).dropReply
  | 0, _ => rfl
  | n + 1, e => Encoder.afterReplies_succ n e.dropReply

/-- The encoder after the writes `ws` have all succeeded. -/
def Encoder.accepted (e : Encoder) (ws : List (List Byte)) : Encoder :=
  { e with
    phase := e.phase + ws.length
    trace := e.trace ++ ws.map (fun w => .write w .ok)
    replies := (e.afterReplies ws.length).replies
    draws := (e.afterReplies ws.length).draws
    onBus := e.onBus ++ ws.flatten }

/-- The write loop passes over a prefix of the frame whose writes all succeed (R128, R129 T2). -/
theorem Encoder.sendAll_accepted (p : Params) (x : Side) (rest : List (List Byte)) : ∀ (ws : List (List Byte)) (e : Encoder),
    (∀ j, j < ws.length → e.replyAt x j = .ok) →
    Encoder.sendAll p x (ws ++ rest) e = Encoder.sendAll p x rest (e.accepted ws)
  | [], e, _ => by simp [Encoder.accepted, Encoder.afterReplies]
  | w :: ws, e, h => by
    have h0 : e.nextReply x = .ok := h 0 (by simp)
    have hw : e.write x w = some (.ok, { e.dropReply.emit (.write w .ok) with onBus := e.onBus ++ w }) := by
      simp [Encoder.write, h0]
    have ih := Encoder.sendAll_accepted p x rest ws
      ({ e.dropReply.emit (.write w .ok) with onBus := e.onBus ++ w } : Encoder).countWrite (fun j hj => by
        rw [← h (j + 1) (by simpa using hj)]
        exact Encoder.replyAt_congr (e' := e.dropReply) j rfl rfl)
    simp only [List.cons_append, Encoder.sendAll, hw, ih]
    congr 1
    have hc := Encoder.afterReplies_congr ws.length
      (e := ({ e.dropReply.emit (.write w .ok) with onBus := e.onBus ++ w } : Encoder).countWrite)
      (e' := e.dropReply) rfl rfl
    simp only [Encoder.accepted, hc.1, hc.2, List.length_cons, Encoder.afterReplies]
    simp
    omega

end Sys2Proof.Machine
end

