-- ==== Sys2Proof/Laws/Commands.lean ====
section
/-! SUPPORT. What a whole command and a whole step can do, said once: every statement about all commands or all steps starts
from these case splits instead of unfolding `exec` or `step`. -/

namespace Sys2Proof.Machine

/-- The transmit command of `x` is `State.transmit`. -/
theorem exec_txCommand (x : Side) (s : State) : exec (txCommand x) s = .next (s.transmit x) := by cases x <;> rfl

/-- A command that neither configures nor transmits; it reaches no port. -/
def portFree (i : Instr) : Prop := i ≠ .aInit ∧ i ≠ .bInit ∧ i ≠ .aTx ∧ i ≠ .bTx

/-- Everything a command can do, by its kind: an INIT, a transmit, or a command that changes the wire buffer of its own
encoder and the response only. -/
theorem exec_shape {i : Instr} {s t : State} (h : exec i s = .next t) :
    (i = .aInit ∧ t = (s.setEnc .A (s.a.configure s.par.clockAHz Config.modeA)).returnOk 0) ∨
    (i = .bInit ∧ t = (s.setEnc .B (s.b.configure Config.clockBHz s.par.modeB)).returnOk 0) ∨
    (∃ x, i = txCommand x ∧ t = s.transmit x) ∨
    (portFree i ∧ i.side = .A ∧ ∃ m r, t = { s with wireA := m, response := r }) ∨
    (portFree i ∧ i.side = .B ∧ ∃ m r, t = { s with wireB := m, response := r }) := by
  cases i with
  | aInit => cases h; exact .inl ⟨rfl, rfl⟩
  | bInit => cases h; exact .inr (.inl ⟨rfl, rfl⟩)
  | aTx => cases h; exact .inr (.inr (.inl ⟨.A, rfl, rfl⟩))
  | bTx => cases h; exact .inr (.inr (.inl ⟨.B, rfl, rfl⟩))
  | aHdr b => cases h; exact .inr (.inr (.inr (.inl ⟨by simp [portFree], rfl, s.wireA, _, rfl⟩)))
  | aEncPx p b => cases h; exact .inr (.inr (.inr (.inl ⟨by simp [portFree], rfl, s.wireA, _, rfl⟩)))
  | aEnc1 p b k =>
    simp only [exec, execAEnc1] at h
    split at h
    · cases h; exact .inr (.inr (.inr (.inl ⟨by simp [portFree], rfl, _, _, rfl⟩)))
    · cases h; exact .inr (.inr (.inr (.inl ⟨by simp [portFree], rfl, s.wireA, _, rfl⟩)))
  | aEncAll b n =>
    obtain ⟨m, hm⟩ := s.encodeLeading_frame b (min n s.par.nA)
    simp only [exec, execAEncAll, hm] at h
    cases h; exact .inr (.inr (.inr (.inl ⟨by simp [portFree], rfl, m, _, rfl⟩)))
  | bEncRng p k n =>
    obtain ⟨m, r, hm⟩ := s.encodeRange_frame p k n
    simp only [exec, execBEncRng, hm] at h
    cases h; exact .inr (.inr (.inr (.inr ⟨by simp [portFree], rfl, m, r, rfl⟩)))
  | bEncAll p =>
    obtain ⟨m, r, hm⟩ := s.encodeRange_frame p 0 (s.par.nB - 1)
    simp only [exec, execBEncAll, hm] at h
    cases h; exact .inr (.inr (.inr (.inr ⟨by simp [portFree], rfl, m, r, rfl⟩)))

/-- The encoder a transmit leaves. -/
theorem State.transmit_enc (x : Side) (s : State) :
    (s.transmit x).enc x = if (s.enc x).cfg = true then
      (Encoder.sendAll s.par x (s.frame x) ((s.enc x).begin.select (s.par.hasCs x))).1 else s.enc x := by
  unfold State.transmit
  split
  · generalize Encoder.sendAll _ _ _ _ = q
    obtain ⟨e, f⟩ := q
    cases f <;> simp [State.endTransmit]
  · simp

/-- Everything a transmit can be: the refusal before INIT (R182), or the write loop and how it ended. -/
theorem State.transmit_cases (x : Side) (s : State) :
    ((s.enc x).cfg = false ∧ s.transmit x = s.raise .notConfigured) ∨
    ((s.enc x).cfg = true ∧ ∃ e fin,
      Encoder.sendAll s.par x (s.frame x) ((s.enc x).begin.select (s.par.hasCs x)) = (e, fin) ∧
      s.transmit x = (s.setEnc x e).endTransmit fin) := by
  unfold State.transmit
  cases h : (s.enc x).cfg
  · exact .inl ⟨rfl, rfl⟩
  · exact .inr ⟨rfl, _, _, rfl, rfl⟩

/-- How a write loop ends (R128, R186, R187, R71): waiting on a write that is never answered, done with chip-select
deasserted, or failed with chip-select as CS_ON_ERROR says. -/
theorem Encoder.sendAll_end (p : Params) (x : Side) : ∀ (ws : List (List Byte)) (e : Encoder), e.seq = .transmitting →
    ((Encoder.sendAll p x ws e).2 = .hung ∧ (Encoder.sendAll p x ws e).1.seq = .transmitting ∧
      (Encoder.sendAll p x ws e).1.nextReply x = .never) ∨
    ((Encoder.sendAll p x ws e).2 = .done ∧ (Encoder.sendAll p x ws e).1.seq = .idle ∧
      (Encoder.sendAll p x ws e).1.phase = 0 ∧
      (Encoder.sendAll p x ws e).1.cs = if p.hasCs x = true then .driven true else e.cs) ∨
    (∃ r, (Encoder.sendAll p x ws e).2 = .failed r ∧ (Encoder.sendAll p x ws e).1.seq = .idle ∧
      (Encoder.sendAll p x ws e).1.phase = 0 ∧
      (Encoder.sendAll p x ws e).1.cs =
        if p.hasCs x = true ∧ p.csOnError = .released then .driven true else e.cs)
  | [], e, _ => by
    right; left
    cases h : p.hasCs x <;> simp [Encoder.sendAll, Encoder.deselect, Encoder.setLevel, Encoder.emit, h]
  | w :: ws, e, hs => by
    rcases Encoder.sendAll_cons p x w ws e with ⟨_, h⟩ | ⟨r, n, _, h⟩ | ⟨hn, h⟩ <;> rw [h]
    · have := Encoder.sendAll_end p x ws (({ e.dropReply.emit (.write w .ok) with onBus := e.onBus ++ w } : Encoder).countWrite)
        (by simp [hs])
      simpa using this
    · right; right
      refine ⟨r, rfl, ?_⟩
      cases hc : p.csOnError <;> cases h : p.hasCs x <;>
        simp [Encoder.abort, Encoder.setLevel, Encoder.emit, h, hc]
    · exact .inl ⟨rfl, hs, hn⟩

/-- The write loop never touches `X.cfg` or the bus configuration (R36, R38). -/
theorem Encoder.sendAll_cfg (p : Params) (x : Side) : ∀ (ws : List (List Byte)) (e : Encoder),
    (Encoder.sendAll p x ws e).1.cfg = e.cfg ∧ (Encoder.sendAll p x ws e).1.busCfg = e.busCfg
  | [], e => by simp [Encoder.sendAll]
  | w :: ws, e => by
    rcases Encoder.sendAll_cons p x w ws e with ⟨_, h⟩ | ⟨_, _, _, h⟩ | ⟨_, h⟩ <;> rw [h]
    · have := Encoder.sendAll_cfg p x ws
        (({ e.dropReply.emit (.write w .ok) with onBus := e.onBus ++ w } : Encoder).countWrite)
      simpa using this
    · simp
    · simp

/-- Neither does a transmit. -/
theorem State.transmit_cfg (x : Side) (s : State) :
    ((s.transmit x).enc x).cfg = (s.enc x).cfg ∧ ((s.transmit x).enc x).busCfg = (s.enc x).busCfg := by
  rw [State.transmit_enc]
  split
  · simpa using Encoder.sendAll_cfg s.par x (s.frame x) ((s.enc x).begin.select (s.par.hasCs x))
  · exact ⟨rfl, rfl⟩

/-- Everything the host's next action can do: it changes no encoder and only one memory, or it runs a command. -/
theorem hostStep_cases {s t : State} (h : hostStep s = .next t) :
    t = s ∨
    (∃ w rest i, s.host = .command w :: rest ∧ decode w = .ok i ∧ exec i (s.issue rest) = .next t) ∨
    (∃ w rest, s.host = .command w :: rest ∧ t = (s.issue rest).raise .illegalCommand) ∨
    (∃ rest k p, k < s.par.nA ∧ t = { s.withHost rest with pixA := Memory.set s.pixA k p }) ∨
    (∃ rest a v, a < sizeWireA s.par ∧ t = { s.withHost rest with wireA := Memory.set s.wireA a v }) ∨
    (∃ rest a v, a < sizeWireB s.par ∧ t = { s.withHost rest with wireB := Memory.set s.wireB a v }) ∨
    (∃ rest d, t = { s.withHost rest with loaded := some d }) := by
  unfold hostStep at h
  split at h
  · cases h; exact .inl rfl
  · rename_i w rest hh
    rcases runWord_cases w (s.issue rest) with ⟨i, hd, hi⟩ | ⟨e, _, he⟩
    · rw [hi] at h; exact .inr (.inl ⟨w, rest, i, hh, hd, h⟩)
    · rw [he] at h; cases h; exact .inr (.inr (.inl ⟨w, rest, hh, rfl⟩))
  all_goals obtain ⟨ha, rfl⟩ := guardAddress_next h
  · exact .inr (.inr (.inr (.inl ⟨_, _, _, ha, rfl⟩)))
  · exact .inr (.inr (.inr (.inr (.inl ⟨_, _, _, ha, rfl⟩))))
  · exact .inr (.inr (.inr (.inr (.inr (.inl ⟨_, _, _, ha, rfl⟩)))))
  all_goals exact .inr (.inr (.inr (.inr (.inr (.inr ⟨_, _, rfl⟩)))))

/-- Everything a step can do: a step of a busy encoder's sequencer, or the host's next action at rest. -/
theorem step_cases {s t : State} (h : step s = .next t) :
    (s.a.seq ≠ .idle ∧ seqStep .A s = .next t) ∨ (s.a.seq = .idle ∧ s.b.seq ≠ .idle ∧ seqStep .B s = .next t) ∨
    (s.atRest ∧ hostStep s = .next t) := by
  unfold step at h
  split at h
  · exact .inl ⟨by assumption, h⟩
  · rename_i ha
    split at h
    · exact .inr (.inl ⟨by simpa using ha, by assumption, h⟩)
    · rename_i hb
      exact .inr (.inr ⟨⟨by simpa using ha, by simpa using hb⟩, h⟩)

end Sys2Proof.Machine
end

