-- ==== Sys2Proof/Laws/Encoding.lean ====
section
/-! SUPPORT. The fields of an assembled command word, and a word as its fields: what a proof about decoding and encoding
needs of bit vectors, said once. -/

namespace Sys2Proof

/-- A command word's bits, field by field. -/
theorem assemble_getLsbD (o r g b : Byte) (h l : BitVec 16) (i : Nat) :
    (assemble o r g b h l).getLsbD i =
      if i < 16 then l.getLsbD i else if i < 32 then h.getLsbD (i - 16) else if i < 40 then b.getLsbD (i - 32)
      else if i < 48 then g.getLsbD (i - 40) else if i < 56 then r.getLsbD (i - 48) else o.getLsbD (i - 56) := by
  unfold assemble
  simp only [BitVec.getLsbD_append]
  split_ifs <;> first | rfl | omega

section
variable (o r g b : Byte) (h l : BitVec 16)

@[simp] theorem fieldOpcode_assemble : fieldOpcode (assemble o r g b h l) = o := by
  ext i hi
  simp only [fieldOpcode, BitVec.getElem_extractLsb', assemble_getLsbD]
  simp [show ¬ (56 + i < 16) by omega, show ¬ (56 + i < 32) by omega, show ¬ (56 + i < 40) by omega,
    show ¬ (56 + i < 48) by omega, hi]

@[simp] theorem fieldRed_assemble : fieldRed (assemble o r g b h l) = r := by
  ext i hi
  simp only [fieldRed, BitVec.getElem_extractLsb', assemble_getLsbD]
  simp [show ¬ (48 + i < 16) by omega, show ¬ (48 + i < 32) by omega, show ¬ (48 + i < 40) by omega,
    show 48 + i < 56 by omega, hi]

@[simp] theorem fieldGreen_assemble : fieldGreen (assemble o r g b h l) = g := by
  ext i hi
  simp only [fieldGreen, BitVec.getElem_extractLsb', assemble_getLsbD]
  simp [show ¬ (40 + i < 16) by omega, show ¬ (40 + i < 32) by omega, show 40 + i < 48 by omega, hi]

@[simp] theorem fieldBlue_assemble : fieldBlue (assemble o r g b h l) = b := by
  ext i hi
  simp only [fieldBlue, BitVec.getElem_extractLsb', assemble_getLsbD]
  simp [show ¬ (32 + i < 16) by omega, show 32 + i < 40 by omega, hi]

@[simp] theorem fieldHi_assemble : fieldHi (assemble o r g b h l) = h := by
  ext i hi
  simp only [fieldHi, BitVec.getElem_extractLsb', assemble_getLsbD]
  simp [show 16 + i < 32 by omega, hi]

@[simp] theorem fieldLo_assemble : fieldLo (assemble o r g b h l) = l := by
  ext i hi
  simp only [fieldLo, BitVec.getElem_extractLsb', assemble_getLsbD]
  simp [hi]

/-- A mask acts on each field by itself. -/
theorem assemble_and (o' r' g' b' : Byte) (h' l' : BitVec 16) :
    assemble o r g b h l &&& assemble o' r' g' b' h' l' =
      assemble (o &&& o') (r &&& r') (g &&& g') (b &&& b') (h &&& h') (l &&& l') := by
  apply BitVec.eq_of_getLsbD_eq
  intro i _
  simp only [BitVec.getLsbD_and, assemble_getLsbD]
  split_ifs <;> rfl

end

/-- Every command word is assembled from its fields. -/
theorem assemble_fields (w : CmdWord) :
    assemble (fieldOpcode w) (fieldRed w) (fieldGreen w) (fieldBlue w) (fieldHi w) (fieldLo w) = w := by
  apply BitVec.eq_of_getLsbD_eq
  intro i hi
  simp only [assemble_getLsbD, fieldOpcode, fieldRed, fieldGreen, fieldBlue, fieldHi, fieldLo, BitVec.getLsbD_extractLsb']
  split_ifs with h1 h2 h3 h4 h5
  · simp [h1]
  · simp [show i - 16 < 16 by omega, show 16 + (i - 16) = i by omega]
  · simp [show i - 32 < 8 by omega, show 32 + (i - 32) = i by omega]
  · simp [show i - 40 < 8 by omega, show 40 + (i - 40) = i by omega]
  · simp [show i - 48 < 8 by omega, show 48 + (i - 48) = i by omega]
  · simp [show i - 56 < 8 by omega, show 56 + (i - 56) = i by omega]

/-- The brightness operand is the low byte of the upper half word (R92). -/
theorem operandBrightness_eq (w : CmdWord) : operandBrightness w = (fieldHi w).extractLsb' 0 8 := by
  ext i hi
  simp [operandBrightness, fieldHi, BitVec.getElem_extractLsb', show i < 16 by omega]

theorem assemble_inj {o r g b o' r' g' b' : Byte} {h l h' l' : BitVec 16} :
    assemble o r g b h l = assemble o' r' g' b' h' l' ↔
      o = o' ∧ r = r' ∧ g = g' ∧ b = b' ∧ h = h' ∧ l = l' := by
  constructor
  · intro e
    refine ⟨?_, ?_, ?_, ?_, ?_, ?_⟩
    · simpa using congrArg fieldOpcode e
    · simpa using congrArg fieldRed e
    · simpa using congrArg fieldGreen e
    · simpa using congrArg fieldBlue e
    · simpa using congrArg fieldHi e
    · simpa using congrArg fieldLo e
  · rintro ⟨rfl, rfl, rfl, rfl, rfl, rfl⟩; rfl

end Sys2Proof
end

