-- ==== Sys2Proof/Laws/Invariant.lean ====
section
/-! SUPPORT. Each move of one encoder keeps what holds of it in every run; and each store of a slot keeps its memory in
canonical form and inside its space. -/

namespace Sys2Proof.Machine

@[simp] theorem lastLevel_setLevel (t : List PortEvent) (l : Bool) : lastLevel (t ++ [.setLevel l]) = .driven l := by
  simp [lastLevel]

@[simp] theorem lastLevel_write (t : List PortEvent) (b : List Byte) (r : WriteResult) :
    lastLevel (t ++ [.write b r]) = lastLevel t := by
  simp [lastLevel]

@[simp] theorem lastLevel_configure (t : List PortEvent) (c : Nat) (m : BusMode) :
    lastLevel (t ++ [.configure c m]) = lastLevel t := by
  simp [lastLevel]

@[simp] theorem lastLevel_write_setLevel (t : List PortEvent) (b : List Byte) (r : WriteResult) (l : Bool) :
    lastLevel (t ++ [.write b r, .setLevel l]) = .driven l := by
  simp [lastLevel]

@[simp] theorem lastConfigure_setLevel (t : List PortEvent) (l : Bool) :
    lastConfigure (t ++ [.setLevel l]) = lastConfigure t := by
  simp [lastConfigure]

@[simp] theorem lastConfigure_write (t : List PortEvent) (b : List Byte) (r : WriteResult) :
    lastConfigure (t ++ [.write b r]) = lastConfigure t := by
  simp [lastConfigure]

@[simp] theorem lastConfigure_configure (t : List PortEvent) (c : Nat) (m : BusMode) :
    lastConfigure (t ++ [.configure c m]) = some ⟨c, m⟩ := by
  simp [lastConfigure]

@[simp] theorem lastConfigure_write_setLevel (t : List PortEvent) (b : List Byte) (r : WriteResult) (l : Bool) :
    lastConfigure (t ++ [.write b r, .setLevel l]) = lastConfigure t := by
  simp [lastConfigure]

/-- A level that stands was driven (R37). -/
theorem setLevel_mem_of_lastLevel (l : Bool) (t : List PortEvent) : lastLevel t = .driven l → PortEvent.setLevel l ∈ t := by
  induction t using List.reverseRecOn with
  | nil => simp [lastLevel]
  | append_singleton t e ih => cases e <;> simp <;> first | exact ih | (intro h; exact .inr h.symm)

section
variable {p : Params} {x : Side} {e : Encoder}

theorem Encoder.Inv.begin (h : e.Inv p x) (hs : e.seq = .idle) (hc : e.cfg = true) : e.begin.Inv p x where
  phaseZero _ := h.phaseZero (by simp [hs])
  phaseBound := h.phaseBound
  csIsLast := h.csIsLast
  noSetLevel := h.noSetLevel
  busCfgIsLast := h.busCfgIsLast
  cfgIff := h.cfgIff
  busyConfigured _ := hc
  selected := by simp [Encoder.begin]
  released hr _ := h.released hr (.inl hs)

theorem Encoder.Inv.select (h : e.Inv p x) (hs : e.seq = .selecting) : (e.select (p.hasCs x)).Inv p x := by
  have hc := h.busyConfigured (by simp [hs])
  have h1 := h.csIsLast
  have h2 := h.noSetLevel
  have h3 := h.busCfgIsLast
  have h4 := h.cfgIff
  cases hcs : p.hasCs x
  · simp [hcs] at h2
    constructor <;> simp [Encoder.select, Encoder.setLevel, *]
    rw [← h3, ← h4, hc]
  · constructor <;> simp [Encoder.select, Encoder.setLevel, Encoder.emit, *]
    rw [← h3, ← h4, hc]

theorem Encoder.Inv.writeOk (h : e.Inv p x) (hs : e.seq = .transmitting) (hp : e.phase < frameWrites x) (b : List Byte) :
    (({ e.dropReply.emit (.write b .ok) with onBus := e.onBus ++ b } : Encoder).countWrite).Inv p x := by
  have hc := h.busyConfigured (by simp [hs])
  have h1 := h.csIsLast
  have h2 := h.noSetLevel
  have h3 := h.busCfgIsLast
  have h4 := h.cfgIff
  have h5 := h.selected (.inl hs)
  constructor <;> simp [hs, ← h1, ← h3, ← h4, hc] <;> first | omega | (simpa using h5) | (intro hq; simpa using h2 hq)

theorem Encoder.Inv.writeErr (h : e.Inv p x) (hs : e.seq = .transmitting) (b : List Byte) (r : TransportError) (sent : Nat) :
    (({ e.dropReply.emit (.write b (.err r)) with onBus := e.onBus ++ b.take sent } : Encoder).abort p x).Inv p x := by
  have hc := h.busyConfigured (by simp [hs])
  have h1 := h.csIsLast
  have h2 := h.noSetLevel
  have h3 := h.busCfgIsLast
  have h4 := h.cfgIff
  have h5 := h.selected (.inl hs)
  cases hcs : p.hasCs x <;> cases hr : p.csOnError <;> simp [hcs] at h2 h5 <;>
    constructor <;> simp [Encoder.abort, hr, Encoder.setLevel, hcs, ← h1, ← h3, ← h4, hc, h2, h5]
  intro hd
  rw [h1] at hd
  exact h2.1 (setLevel_mem_of_lastLevel _ _ hd)

theorem Encoder.Inv.writesDone (h : e.Inv p x) (hs : e.seq = .transmitting) : e.writesDone.Inv p x := by
  have hc := h.busyConfigured (by simp [hs])
  have h1 := h.csIsLast
  have h2 := h.noSetLevel
  have h3 := h.busCfgIsLast
  have h4 := h.cfgIff
  have h5 := h.selected (.inl hs)
  constructor <;> simp [← h1, ← h3, ← h4, hc] <;> first | assumption | (intro hq; simpa using h2 hq)

theorem Encoder.Inv.deselect (h : e.Inv p x) (hs : e.seq = .deselecting) : (e.deselect (p.hasCs x)).Inv p x := by
  have hc := h.busyConfigured (by simp [hs])
  have h0 := h.phaseZero (by simp [hs])
  have h1 := h.csIsLast
  have h2 := h.noSetLevel
  have h3 := h.busCfgIsLast
  have h4 := h.cfgIff
  have h5 := h.selected (.inr hs)
  cases hcs : p.hasCs x <;> simp [hcs] at h2 h5 <;>
    constructor <;> simp [Encoder.deselect, Encoder.setLevel, Encoder.emit, hcs, ← h1, ← h3, ← h4, hc, h2, h5, h0]
  intro _ hd
  rw [h1] at hd
  exact h2.1 (setLevel_mem_of_lastLevel _ _ hd)

/-- An INIT keeps it, whatever the sequencer does (R123, R153). -/
theorem Encoder.Inv.configure (h : e.Inv p x) (c : Nat) (m : BusMode) : (e.configure c m).Inv p x where
  phaseZero := h.phaseZero
  phaseBound := h.phaseBound
  csIsLast := by simpa using h.csIsLast
  noSetLevel := by simpa using h.noSetLevel
  busCfgIsLast := by simp
  cfgIff := by simp
  busyConfigured := by simp
  selected := h.selected
  released := h.released

end

/-- One stored slot keeps `WIRE_A` canonical and inside its space (R57). -/
theorem State.storeSlotA_wf (k : Nat) (p : Pixel) (b : Byte) (s : State) (hw : Memory.wf s.wireA = true)
    (hi : ∀ c ∈ s.wireA, c.1 < sizeWireA s.par) (hk : k < s.par.nA) :
    Memory.wf (s.storeSlotA k p b).wireA = true ∧ ∀ c ∈ (s.storeSlotA k p b).wireA, c.1 < sizeWireA s.par :=
  ⟨Memory.writeSeq_wf hw, Memory.writeSeq_inside hi (by simp [slotAddrA, sizeWireA]; omega)⟩

/-- One stored slot keeps `WIRE_B` canonical and inside its space (R57). -/
theorem State.storeSlotB_wf (k : Nat) (p : Pixel) (s : State) (hw : Memory.wf s.wireB = true)
    (hi : ∀ c ∈ s.wireB, c.1 < sizeWireB s.par) (hk : k < s.par.nB) :
    Memory.wf (s.storeSlotB k p).wireB = true ∧ ∀ c ∈ (s.storeSlotB k p).wireB, c.1 < sizeWireB s.par :=
  ⟨Memory.writeSeq_wf hw, Memory.writeSeq_inside hi (by simp [slotAddrB, sizeWireB]; omega)⟩

end Sys2Proof.Machine
end

