-- ==== Sys2Proof/Laws/Rows.lean ====
section
/-! SUPPORT. Which words each row of the opcode map selects, field by field (R95), and decoding as one chain of cases. -/

namespace Sys2Proof

theorem byte_and_ones (b : Byte) : b &&& 0xFF#8 = b := by
  rw [show (0xFF#8) = BitVec.allOnes 8 from rfl, BitVec.and_allOnes]

theorem half_and_ones (h : BitVec 16) : h &&& 0xFFFF#16 = h := by
  rw [show (0xFFFF#16) = BitVec.allOnes 16 from rfl, BitVec.and_allOnes]

/-- A mask and a match word, each written by its fields, compare field by field. -/
theorem masked_eq (w : CmdWord) (mo mr mg mb : Byte) (mh ml : BitVec 16) (o r g b : Byte) (h l : BitVec 16) :
    (w &&& assemble mo mr mg mb mh ml == assemble o r g b h l) =
      decide (fieldOpcode w &&& mo = o ∧ fieldRed w &&& mr = r ∧ fieldGreen w &&& mg = g ∧ fieldBlue w &&& mb = b ∧
        fieldHi w &&& mh = h ∧ fieldLo w &&& ml = l) := by
  conv_lhs => rw [← assemble_fields w]
  simp only [assemble_and, beq_eq_decide, assemble_inj]

theorem selects_aInit (w : CmdWord) : (w &&& (0xFFFFFFFFFFFFFFFF : CmdWord) == (0x1000000000000000 : CmdWord)) =
    decide (fieldOpcode w = 0x10 ∧ fieldRed w = 0 ∧ fieldGreen w = 0 ∧ fieldBlue w = 0 ∧ fieldHi w = 0 ∧ fieldLo w = 0) := by
  rw [show (0xFFFFFFFFFFFFFFFF : CmdWord) = assemble 0xFF 0xFF 0xFF 0xFF 0xFFFF 0xFFFF by decide,
    show (0x1000000000000000 : CmdWord) = assemble 0x10 0 0 0 0 0 by decide, masked_eq]
  simp [byte_and_ones, half_and_ones]

theorem selects_aHdr (w : CmdWord) : (w &&& (0xFFFFFFFFFF00FFFF : CmdWord) == (0x1100000000000000 : CmdWord)) =
    decide (fieldOpcode w = 0x11 ∧ fieldRed w = 0 ∧ fieldGreen w = 0 ∧ fieldBlue w = 0 ∧ fieldHi w &&& 0xFF00 = 0 ∧ fieldLo w = 0) := by
  rw [show (0xFFFFFFFFFF00FFFF : CmdWord) = assemble 0xFF 0xFF 0xFF 0xFF 0xFF00 0xFFFF by decide,
    show (0x1100000000000000 : CmdWord) = assemble 0x11 0 0 0 0 0 by decide, masked_eq]
  simp [byte_and_ones, half_and_ones]

theorem selects_aEncPx (w : CmdWord) : (w &&& (0xFF000000FF00FFFF : CmdWord) == (0x1200000000000000 : CmdWord)) =
    decide (fieldOpcode w = 0x12 ∧ fieldHi w &&& 0xFF00 = 0 ∧ fieldLo w = 0) := by
  rw [show (0xFF000000FF00FFFF : CmdWord) = assemble 0xFF 0x00 0x00 0x00 0xFF00 0xFFFF by decide,
    show (0x1200000000000000 : CmdWord) = assemble 0x12 0 0 0 0 0 by decide, masked_eq]
  simp [byte_and_ones, half_and_ones]

theorem selects_aEnc1 (w : CmdWord) : (w &&& (0xFF000000FF000000 : CmdWord) == (0x1300000000000000 : CmdWord)) =
    decide (fieldOpcode w = 0x13 ∧ fieldHi w &&& 0xFF00 = 0) := by
  rw [show (0xFF000000FF000000 : CmdWord) = assemble 0xFF 0x00 0x00 0x00 0xFF00 0x0000 by decide,
    show (0x1300000000000000 : CmdWord) = assemble 0x13 0 0 0 0 0 by decide, masked_eq]
  simp [byte_and_ones]

theorem selects_aEncAll (w : CmdWord) : (w &&& (0xFFFFFFFFFF000000 : CmdWord) == (0x1400000000000000 : CmdWord)) =
    decide (fieldOpcode w = 0x14 ∧ fieldRed w = 0 ∧ fieldGreen w = 0 ∧ fieldBlue w = 0 ∧ fieldHi w &&& 0xFF00 = 0) := by
  rw [show (0xFFFFFFFFFF000000 : CmdWord) = assemble 0xFF 0xFF 0xFF 0xFF 0xFF00 0x0000 by decide,
    show (0x1400000000000000 : CmdWord) = assemble 0x14 0 0 0 0 0 by decide, masked_eq]
  simp [byte_and_ones]

theorem selects_aTx (w : CmdWord) : (w &&& (0xFFFFFFFFFFFFFFFF : CmdWord) == (0x1500000000000000 : CmdWord)) =
    decide (fieldOpcode w = 0x15 ∧ fieldRed w = 0 ∧ fieldGreen w = 0 ∧ fieldBlue w = 0 ∧ fieldHi w = 0 ∧ fieldLo w = 0) := by
  rw [show (0xFFFFFFFFFFFFFFFF : CmdWord) = assemble 0xFF 0xFF 0xFF 0xFF 0xFFFF 0xFFFF by decide,
    show (0x1500000000000000 : CmdWord) = assemble 0x15 0 0 0 0 0 by decide, masked_eq]
  simp [byte_and_ones, half_and_ones]

theorem selects_bInit (w : CmdWord) : (w &&& (0xFFFFFFFFFFFFFFFF : CmdWord) == (0x2000000000000000 : CmdWord)) =
    decide (fieldOpcode w = 0x20 ∧ fieldRed w = 0 ∧ fieldGreen w = 0 ∧ fieldBlue w = 0 ∧ fieldHi w = 0 ∧ fieldLo w = 0) := by
  rw [show (0xFFFFFFFFFFFFFFFF : CmdWord) = assemble 0xFF 0xFF 0xFF 0xFF 0xFFFF 0xFFFF by decide,
    show (0x2000000000000000 : CmdWord) = assemble 0x20 0 0 0 0 0 by decide, masked_eq]
  simp [byte_and_ones, half_and_ones]

theorem selects_bEncRng (w : CmdWord) : (w &&& (0xFF00000000000000 : CmdWord) == (0x2100000000000000 : CmdWord)) =
    decide (fieldOpcode w = 0x21) := by
  rw [show (0xFF00000000000000 : CmdWord) = assemble 0xFF 0x00 0x00 0x00 0x0000 0x0000 by decide,
    show (0x2100000000000000 : CmdWord) = assemble 0x21 0 0 0 0 0 by decide, masked_eq]
  simp [byte_and_ones]

theorem selects_bEncAll (w : CmdWord) : (w &&& (0xFF000000FFFFFFFF : CmdWord) == (0x2200000000000000 : CmdWord)) =
    decide (fieldOpcode w = 0x22 ∧ fieldHi w = 0 ∧ fieldLo w = 0) := by
  rw [show (0xFF000000FFFFFFFF : CmdWord) = assemble 0xFF 0x00 0x00 0x00 0xFFFF 0xFFFF by decide,
    show (0x2200000000000000 : CmdWord) = assemble 0x22 0 0 0 0 0 by decide, masked_eq]
  simp [byte_and_ones, half_and_ones]

theorem selects_bTx (w : CmdWord) : (w &&& (0xFFFFFFFFFFFFFFFF : CmdWord) == (0x2300000000000000 : CmdWord)) =
    decide (fieldOpcode w = 0x23 ∧ fieldRed w = 0 ∧ fieldGreen w = 0 ∧ fieldBlue w = 0 ∧ fieldHi w = 0 ∧ fieldLo w = 0) := by
  rw [show (0xFFFFFFFFFFFFFFFF : CmdWord) = assemble 0xFF 0xFF 0xFF 0xFF 0xFFFF 0xFFFF by decide,
    show (0x2300000000000000 : CmdWord) = assemble 0x23 0 0 0 0 0 by decide, masked_eq]
  simp [byte_and_ones, half_and_ones]

/-- R95: which words the ten rows select. -/
theorem opcodeTable_selects (w : CmdWord) : opcodeTable.map (fun r => r.selects w) =
    [decide (fieldOpcode w = 0x10 ∧ fieldRed w = 0 ∧ fieldGreen w = 0 ∧ fieldBlue w = 0 ∧ fieldHi w = 0 ∧ fieldLo w = 0),
     decide (fieldOpcode w = 0x11 ∧ fieldRed w = 0 ∧ fieldGreen w = 0 ∧ fieldBlue w = 0 ∧ fieldHi w &&& 0xFF00 = 0 ∧ fieldLo w = 0),
     decide (fieldOpcode w = 0x12 ∧ fieldHi w &&& 0xFF00 = 0 ∧ fieldLo w = 0),
     decide (fieldOpcode w = 0x13 ∧ fieldHi w &&& 0xFF00 = 0),
     decide (fieldOpcode w = 0x14 ∧ fieldRed w = 0 ∧ fieldGreen w = 0 ∧ fieldBlue w = 0 ∧ fieldHi w &&& 0xFF00 = 0),
     decide (fieldOpcode w = 0x15 ∧ fieldRed w = 0 ∧ fieldGreen w = 0 ∧ fieldBlue w = 0 ∧ fieldHi w = 0 ∧ fieldLo w = 0),
     decide (fieldOpcode w = 0x20 ∧ fieldRed w = 0 ∧ fieldGreen w = 0 ∧ fieldBlue w = 0 ∧ fieldHi w = 0 ∧ fieldLo w = 0),
     decide (fieldOpcode w = 0x21),
     decide (fieldOpcode w = 0x22 ∧ fieldHi w = 0 ∧ fieldLo w = 0),
     decide (fieldOpcode w = 0x23 ∧ fieldRed w = 0 ∧ fieldGreen w = 0 ∧ fieldBlue w = 0 ∧ fieldHi w = 0 ∧ fieldLo w = 0)] := by
  simp only [opcodeTable, opcodeRowsA, opcodeRowsB, List.cons_append, List.nil_append, List.map_cons, List.map_nil,
    OpRow.selects, selects_aInit, selects_aHdr, selects_aEncPx, selects_aEnc1, selects_aEncAll,
    selects_aTx, selects_bInit, selects_bEncRng, selects_bEncAll, selects_bTx]

/-- R96: decoding as one chain of cases, on the fields of the word. -/
theorem decode_by_fields (w : CmdWord) : decode w =
    if fieldOpcode w = 0x10 ∧ fieldRed w = 0 ∧ fieldGreen w = 0 ∧ fieldBlue w = 0 ∧ fieldHi w = 0 ∧ fieldLo w = 0 then .ok .aInit else
    if fieldOpcode w = 0x11 ∧ fieldRed w = 0 ∧ fieldGreen w = 0 ∧ fieldBlue w = 0 ∧ fieldHi w &&& 0xFF00 = 0 ∧ fieldLo w = 0 then .ok (.aHdr (operandBrightness w)) else
    if fieldOpcode w = 0x12 ∧ fieldHi w &&& 0xFF00 = 0 ∧ fieldLo w = 0 then .ok (.aEncPx (operandPixel w) (operandBrightness w)) else
    if fieldOpcode w = 0x13 ∧ fieldHi w &&& 0xFF00 = 0 then .ok (.aEnc1 (operandPixel w) (operandBrightness w) (operandLo w)) else
    if fieldOpcode w = 0x14 ∧ fieldRed w = 0 ∧ fieldGreen w = 0 ∧ fieldBlue w = 0 ∧ fieldHi w &&& 0xFF00 = 0 then .ok (.aEncAll (operandBrightness w) (operandLo w)) else
    if fieldOpcode w = 0x15 ∧ fieldRed w = 0 ∧ fieldGreen w = 0 ∧ fieldBlue w = 0 ∧ fieldHi w = 0 ∧ fieldLo w = 0 then .ok .aTx else
    if fieldOpcode w = 0x20 ∧ fieldRed w = 0 ∧ fieldGreen w = 0 ∧ fieldBlue w = 0 ∧ fieldHi w = 0 ∧ fieldLo w = 0 then .ok .bInit else
    if fieldOpcode w = 0x21 then .ok (.bEncRng (operandPixel w) (operandLo w) (operandHi w)) else
    if fieldOpcode w = 0x22 ∧ fieldHi w = 0 ∧ fieldLo w = 0 then .ok (.bEncAll (operandPixel w)) else
    if fieldOpcode w = 0x23 ∧ fieldRed w = 0 ∧ fieldGreen w = 0 ∧ fieldBlue w = 0 ∧ fieldHi w = 0 ∧ fieldLo w = 0 then .ok .bTx else
    .error (whyIllegal w) := by
  have h := opcodeTable_selects w
  simp only [opcodeTable, opcodeRowsA, opcodeRowsB, List.cons_append, List.nil_append, List.map_cons, List.map_nil,
    List.cons.injEq] at h
  obtain ⟨h1, h2, h3, h4, h5, h6, h7, h8, h9, h10, -⟩ := h
  simp only [decode, opcodeTable, opcodeRowsA, opcodeRowsB, List.cons_append, List.nil_append, List.find?_cons,
    List.find?_nil, h1, h2, h3, h4, h5, h6, h7, h8, h9, h10]
  split_ifs with c1 c2 c3 c4 c5 c6 c7 c8 c9 c10
  · rw [decide_eq_true c1]
  · rw [decide_eq_false c1, decide_eq_true c2]
  · rw [decide_eq_false c1, decide_eq_false c2, decide_eq_true c3]
  · rw [decide_eq_false c1, decide_eq_false c2, decide_eq_false c3, decide_eq_true c4]
  · rw [decide_eq_false c1, decide_eq_false c2, decide_eq_false c3, decide_eq_false c4, decide_eq_true c5]
  · rw [decide_eq_false c1, decide_eq_false c2, decide_eq_false c3, decide_eq_false c4, decide_eq_false c5,
      decide_eq_true c6]
  · rw [decide_eq_false c1, decide_eq_false c2, decide_eq_false c3, decide_eq_false c4, decide_eq_false c5,
      decide_eq_false c6, decide_eq_true c7]
  · rw [decide_eq_false c1, decide_eq_false c2, decide_eq_false c3, decide_eq_false c4, decide_eq_false c5,
      decide_eq_false c6, decide_eq_false c7, decide_eq_true c8]
  · rw [decide_eq_false c1, decide_eq_false c2, decide_eq_false c3, decide_eq_false c4, decide_eq_false c5,
      decide_eq_false c6, decide_eq_false c7, decide_eq_false c8, decide_eq_true c9]
  · rw [decide_eq_false c1, decide_eq_false c2, decide_eq_false c3, decide_eq_false c4, decide_eq_false c5,
      decide_eq_false c6, decide_eq_false c7, decide_eq_false c8, decide_eq_false c9, decide_eq_true c10]
  · rw [decide_eq_false c1, decide_eq_false c2, decide_eq_false c3, decide_eq_false c4, decide_eq_false c5,
      decide_eq_false c6, decide_eq_false c7, decide_eq_false c8, decide_eq_false c9, decide_eq_false c10]

/-- The must-be-zero byte of format P above the brightness (R92). -/
theorem brightness_half (b : Byte) :
    ((0#8 ++ b) &&& 0xFF00#16) = 0#16 ∧ (0#8 ++ b).extractLsb' 0 8 = b := by
  revert b; decide

/-- A half word whose upper byte is zero is its brightness (R92). -/
theorem half_of_brightness (h : BitVec 16) (e : h &&& 0xFF00#16 = 0#16) : (0#8 ++ h.extractLsb' 0 8) = h := by
  have one : ∀ i, 8 ≤ i → i < 16 → (0xFF00#16).getLsbD i = true := by intro i h h'; interval_cases i <;> rfl
  apply BitVec.eq_of_getLsbD_eq
  intro i hi
  have := congrArg (fun v => v.getLsbD i) e
  simp only [BitVec.getLsbD_and] at this
  rw [BitVec.getLsbD_append]
  split
  · simp [*]
  · rw [one i (by omega) (by omega)] at this
    simpa using this.symm

/-- A range of must-be-zero bits is zero exactly when each of its bits is. -/
theorem extract_zero_iff (w : CmdWord) (lo n : Nat) :
    w.extractLsb' lo n = 0 ↔ ∀ i, lo ≤ i → i < lo + n → w.getLsbD i = false := by
  constructor
  · intro h i h1 h2
    have := congrArg (fun v => v.getLsbD (i - lo)) h
    simpa [show i - lo < n by omega, show lo + (i - lo) = i by omega] using this
  · intro h
    apply BitVec.eq_of_getLsbD_eq
    intro i hi
    simp [hi]
    exact h _ (by omega) (by omega)

/-- R92: the must-be-zero byte above the brightness, as a mask on its half word. -/
theorem mustBeZero_half (w : CmdWord) : w.extractLsb' 24 8 = 0 ↔ fieldHi w &&& 0xFF00 = 0 := by
  have one : ∀ i, 8 ≤ i → i < 16 → (0xFF00#16).getLsbD i = true := by intro i h h'; interval_cases i <;> rfl
  have zero : ∀ i, i < 8 → (0xFF00#16).getLsbD i = false := by decide
  rw [extract_zero_iff]
  constructor
  · intro h
    apply BitVec.eq_of_getLsbD_eq
    intro i hi
    simp only [BitVec.getLsbD_and, fieldHi, BitVec.getLsbD_extractLsb']
    by_cases h8 : i < 8
    · erw [zero i h8]; simp
    · simp [h (16 + i) (by omega) (by omega)]
  · intro h i h1 h2
    have := congrArg (fun v => v.getLsbD (i - 16)) h
    simp only [BitVec.getLsbD_and, fieldHi, BitVec.getLsbD_extractLsb'] at this
    erw [one (i - 16) (by omega) (by omega)] at this
    simpa [show i - 16 < 16 by omega, show 16 + (i - 16) = i by omega] using this

/-- R91: the must-be-zero bits of format Z are all the fields below the opcode. -/
theorem mustBeZero_below (w : CmdWord) : w.extractLsb' 0 56 = 0 ↔
    fieldRed w = 0 ∧ fieldGreen w = 0 ∧ fieldBlue w = 0 ∧ fieldHi w = 0 ∧ fieldLo w = 0 := by
  unfold fieldRed fieldGreen fieldBlue fieldHi fieldLo
  rw [extract_zero_iff, extract_zero_iff, extract_zero_iff,
    extract_zero_iff, extract_zero_iff, extract_zero_iff]
  refine ⟨fun h => ⟨fun i _ _ => h i (by omega) (by omega), fun i _ _ => h i (by omega) (by omega),
    fun i _ _ => h i (by omega) (by omega), fun i _ _ => h i (by omega) (by omega),
    fun i _ _ => h i (by omega) (by omega)⟩, ?_⟩
  rintro ⟨a, b, c, d, e⟩ i h1 h2
  rcases Nat.lt_or_ge i 16 with h | h
  · exact e i (by omega) (by omega)
  rcases Nat.lt_or_ge i 32 with h | h
  · exact d i (by omega) (by omega)
  rcases Nat.lt_or_ge i 40 with h | h
  · exact c i (by omega) (by omega)
  rcases Nat.lt_or_ge i 48 with h | h
  · exact b i (by omega) (by omega)
  · exact a i (by omega) (by omega)

/-- R92: the must-be-zero bits of a format P command that names no pixel. -/
theorem mustBeZero_pixel (w : CmdWord) : w.extractLsb' 24 32 = 0 ↔
    fieldRed w = 0 ∧ fieldGreen w = 0 ∧ fieldBlue w = 0 ∧ fieldHi w &&& 0xFF00 = 0 := by
  rw [← mustBeZero_half]
  unfold fieldRed fieldGreen fieldBlue
  rw [extract_zero_iff, extract_zero_iff, extract_zero_iff,
    extract_zero_iff, extract_zero_iff]
  refine ⟨fun h => ⟨fun i _ _ => h i (by omega) (by omega), fun i _ _ => h i (by omega) (by omega),
    fun i _ _ => h i (by omega) (by omega), fun i _ _ => h i (by omega) (by omega)⟩, ?_⟩
  rintro ⟨a, b, c, d⟩ i h1 h2
  rcases Nat.lt_or_ge i 32 with h | h
  · exact d i (by omega) (by omega)
  rcases Nat.lt_or_ge i 40 with h | h
  · exact c i (by omega) (by omega)
  rcases Nat.lt_or_ge i 48 with h | h
  · exact b i (by omega) (by omega)
  · exact a i (by omega) (by omega)

/-- R93: the must-be-zero bits of a format R command that names no range. -/
theorem mustBeZero_range (w : CmdWord) : w.extractLsb' 0 32 = 0 ↔ fieldHi w = 0 ∧ fieldLo w = 0 := by
  unfold fieldHi fieldLo
  rw [extract_zero_iff, extract_zero_iff, extract_zero_iff]
  refine ⟨fun h => ⟨fun i _ _ => h i (by omega) (by omega), fun i _ _ => h i (by omega) (by omega)⟩, ?_⟩
  rintro ⟨a, b⟩ i h1 h2
  rcases Nat.lt_or_ge i 16 with h | h
  · exact b i (by omega) (by omega)
  · exact a i (by omega) (by omega)

end Sys2Proof
end

