-- ==== Sys2Proof/Laws/PerInstr.lean ====
section
/-! SUPPORT. Statements made for each command as syntax. Family Row: the command word of a command is selected by the row of
R95 with its mnemonic and its opcode. -/

namespace Sys2Proof.Laws.Row

/-- R95, R106: encoding a command gives a word of its own row. -/
def Statement (i : Sys2Proof.Instr) : Prop :=
  ∃ r ∈ opcodeTable, r.mnemonic = i.mnemonic ∧ r.opcode = fieldOpcode (encode i) ∧ r.selects (encode i) = true

/-- A word selects row `n` of the table exactly when entry `n` of the list of R95's conditions holds. -/
theorem of_position (n : Nat) (r : OpRow) (i : Sys2Proof.Instr) (hr : opcodeTable[n]? = some r)
    (hm : r.mnemonic = i.mnemonic) (ho : r.opcode = fieldOpcode (encode i))
    (hs : (opcodeTable.map (fun r => r.selects (encode i)))[n]? = some true) : Statement i := by
  refine ⟨r, List.mem_of_getElem? hr, hm, ho, ?_⟩
  simpa [hr] using hs

theorem aInit : Statement .aInit :=
  of_position 0 _ _ rfl rfl rfl (by rw [opcodeTable_selects]; simp [encode, formatZ])

theorem aHdr (brightness : Byte) : Statement (.aHdr brightness) :=
  of_position 1 _ _ rfl rfl (by simp [encode, formatP])
    (by rw [opcodeTable_selects]; simp [encode, formatP, brightness_half])

theorem aEncPx (pixel : Pixel) (brightness : Byte) : Statement (.aEncPx pixel brightness) :=
  of_position 2 _ _ rfl rfl (by simp [encode, formatP])
    (by rw [opcodeTable_selects]; simp [encode, formatP, brightness_half])

theorem aEnc1 (pixel : Pixel) (brightness : Byte) (index : Nat) : Statement (.aEnc1 pixel brightness index) :=
  of_position 3 _ _ rfl rfl (by simp [encode, formatP])
    (by rw [opcodeTable_selects]; simp [encode, formatP, brightness_half])

theorem aEncAll (brightness : Byte) (count : Nat) : Statement (.aEncAll brightness count) :=
  of_position 4 _ _ rfl rfl (by simp [encode, formatP])
    (by rw [opcodeTable_selects]; simp [encode, formatP, brightness_half])

theorem aTx : Statement .aTx :=
  of_position 5 _ _ rfl rfl rfl (by rw [opcodeTable_selects]; simp [encode, formatZ])

theorem bInit : Statement .bInit :=
  of_position 6 _ _ rfl rfl rfl (by rw [opcodeTable_selects]; simp [encode, formatZ])

theorem bEncRng (pixel : Pixel) (start stop : Nat) : Statement (.bEncRng pixel start stop) :=
  of_position 7 _ _ rfl rfl (by simp [encode, formatR])
    (by rw [opcodeTable_selects]; simp [encode, formatR])

theorem bEncAll (pixel : Pixel) : Statement (.bEncAll pixel) :=
  of_position 8 _ _ rfl rfl (by simp [encode, formatR])
    (by rw [opcodeTable_selects]; simp [encode, formatR])

theorem bTx : Statement .bTx :=
  of_position 9 _ _ rfl rfl rfl (by rw [opcodeTable_selects]; simp [encode, formatZ])

end Sys2Proof.Laws.Row
end

