-- ==== Sys2Proof/Laws/Relabel.lean ====
section
/-! SUPPORT. What replacing the transport errors of a machine commutes with: the moves of an encoder, one write, and the
whole write loop of a transmit. -/

namespace Sys2Proof.Machine

variable (f : TransportError → TransportError) (e : Encoder) (s : State)

@[simp] theorem Encoder.relabel_seq : (e.relabel f).seq = e.seq := rfl
@[simp] theorem Encoder.relabel_phase : (e.relabel f).phase = e.phase := rfl
@[simp] theorem Encoder.relabel_cfg : (e.relabel f).cfg = e.cfg := rfl
@[simp] theorem Encoder.relabel_cs : (e.relabel f).cs = e.cs := rfl
@[simp] theorem Encoder.relabel_trace : (e.relabel f).trace = e.trace.map (PortEvent.relabel f) := rfl
@[simp] theorem Encoder.relabel_busCfg : (e.relabel f).busCfg = e.busCfg := rfl
@[simp] theorem Encoder.relabel_replies : (e.relabel f).replies = e.replies.map (relabelReply f) := rfl
@[simp] theorem Encoder.relabel_draws : (e.relabel f).draws = e.draws := rfl
@[simp] theorem Encoder.relabel_onBus : (e.relabel f).onBus = e.onBus := rfl

@[simp] theorem State.relabel_par : (s.relabel f).par = s.par := rfl
@[simp] theorem State.relabel_a : (s.relabel f).a = s.a.relabel f := rfl
@[simp] theorem State.relabel_b : (s.relabel f).b = s.b.relabel f := rfl
@[simp] theorem State.relabel_pixA : (s.relabel f).pixA = s.pixA := rfl
@[simp] theorem State.relabel_wireA : (s.relabel f).wireA = s.wireA := rfl
@[simp] theorem State.relabel_wireB : (s.relabel f).wireB = s.wireB := rfl
@[simp] theorem State.relabel_response : (s.relabel f).response = s.response.map (Response.relabel f) := rfl
@[simp] theorem State.relabel_host : (s.relabel f).host = s.host := rfl
@[simp] theorem State.relabel_loaded : (s.relabel f).loaded = s.loaded := rfl
@[simp] theorem State.relabel_enc (x : Side) : (s.relabel f).enc x = (s.enc x).relabel f := by cases x <;> rfl
@[simp] theorem State.relabel_frame (x : Side) : (s.relabel f).frame x = s.frame x := by cases x <;> rfl

theorem State.setEnc_relabel (x : Side) : (s.relabel f).setEnc x (e.relabel f) = (s.setEnc x e).relabel f := by
  cases x <;> rfl

theorem State.returnOk_relabel (data : BitVec 32) : (s.relabel f).returnOk data = (s.returnOk data).relabel f := rfl

theorem Encoder.begin_relabel : (e.relabel f).begin = e.begin.relabel f := rfl

theorem Encoder.countWrite_relabel : (e.relabel f).countWrite = e.countWrite.relabel f := rfl

theorem Encoder.writesDone_relabel : (e.relabel f).writesDone = e.writesDone.relabel f := rfl

theorem Encoder.emit_relabel (ev : PortEvent) : (e.relabel f).emit (ev.relabel f) = (e.emit ev).relabel f := by
  simp [Encoder.emit, Encoder.relabel]

theorem Encoder.setLevel_relabel (hasCs level : Bool) :
    (e.relabel f).setLevel hasCs level = (e.setLevel hasCs level).relabel f := by
  cases hasCs <;> simp [Encoder.setLevel, Encoder.emit, Encoder.relabel, PortEvent.relabel]

theorem Encoder.configure_relabel (hz : Nat) (mode : BusMode) :
    (e.relabel f).configure hz mode = (e.configure hz mode).relabel f := by
  simp [Encoder.configure, Encoder.emit, Encoder.relabel, PortEvent.relabel]

theorem Encoder.select_relabel (hasCs : Bool) : (e.relabel f).select hasCs = (e.select hasCs).relabel f := by
  simp only [Encoder.select, Encoder.setLevel_relabel]; rfl

theorem Encoder.deselect_relabel (hasCs : Bool) : (e.relabel f).deselect hasCs = (e.deselect hasCs).relabel f := by
  simp only [Encoder.deselect, Encoder.setLevel_relabel]; rfl

theorem Encoder.abort_relabel (p : Params) (x : Side) : (e.relabel f).abort p x = (e.abort p x).relabel f := by
  unfold Encoder.abort
  cases p.csOnError
  · rfl
  · have h := Encoder.setLevel_relabel f ({ e with seq := .deselecting } : Encoder) (p.hasCs x) true
    simp only at h ⊢
    exact congrArg (fun u : Encoder => ({ u with seq := .idle, phase := 0 } : Encoder)) h

theorem Encoder.dropReply_relabel : (e.relabel f).dropReply = e.dropReply.relabel f := by
  rcases h : e.replies with _ | ⟨r, rest⟩ <;> simp [Encoder.dropReply, Encoder.relabel, h]

/-- One write: if the transport's answer is the relabelled one, so are the result and the encoder. -/
theorem Encoder.write_relabel (x : Side) (bytes : List Byte)
    (h : (e.relabel f).nextReply x = relabelReply f (e.nextReply x)) :
    (e.relabel f).write x bytes = (e.write x bytes).map (fun r => (r.1.relabel f, r.2.relabel f)) := by
  unfold Encoder.write
  rw [h, Encoder.dropReply_relabel]
  cases e.nextReply x <;>
    simp [relabelReply, Encoder.emit, Encoder.relabel, PortEvent.relabel, WriteResult.relabel]

/-- The end of a write loop with its error replaced. -/
def TxEnd.relabel (f : TransportError → TransportError) : TxEnd → TxEnd
  | .done => .done
  | .failed t => .failed (f t)
  | .hung => .hung

theorem State.endTransmit_relabel (fin : TxEnd) :
    (s.relabel f).endTransmit (fin.relabel f) = (s.endTransmit fin).relabel f := by cases fin <;> rfl

theorem Encoder.afterReplies_relabel : ∀ (n : Nat) (e : Encoder),
    (e.relabel f).afterReplies n = (e.afterReplies n).relabel f
  | 0, _ => rfl
  | n + 1, e => by
    rw [Encoder.afterReplies, Encoder.dropReply_relabel]; exact Encoder.afterReplies_relabel n e.dropReply

/-- The write loop: if every answer it can ask for is the relabelled one, so are its end and the encoder. -/
theorem Encoder.sendAll_relabel (p : Params) (x : Side) : ∀ (ws : List (List Byte)) (e : Encoder),
    (∀ j, j < ws.length → (e.relabel f).replyAt x j = relabelReply f (e.replyAt x j)) →
    Encoder.sendAll p x ws (e.relabel f) =
      ((Encoder.sendAll p x ws e).1.relabel f, (Encoder.sendAll p x ws e).2.relabel f)
  | [], e, _ => by
    simp only [Encoder.sendAll, Encoder.writesDone_relabel, Encoder.deselect_relabel]; rfl
  | w :: ws, e, h => by
    have hw := Encoder.write_relabel f e x w (h 0 (by simp))
    rcases Encoder.write_cases x w e with ⟨-, hr⟩ | ⟨t, n, -, hr⟩ | ⟨-, hr⟩
    · have ih := Encoder.sendAll_relabel p x ws
        ({ e.dropReply.emit (.write w .ok) with onBus := e.onBus ++ w } : Encoder).countWrite (fun j hj => by
          rw [Encoder.replyAt_congr (e' := (e.relabel f).dropReply) j (by rw [Encoder.dropReply_relabel]; rfl)
            (by rw [Encoder.dropReply_relabel]; rfl)]
          exact (h (j + 1) (by simpa using hj)).trans
            (congrArg (relabelReply f) (Encoder.replyAt_congr (e := e.dropReply) j rfl rfl)))
      simpa only [Encoder.sendAll, hw, hr, Option.map_some, WriteResult.relabel, Encoder.countWrite_relabel] using ih
    · simp only [Encoder.sendAll, hw, hr, Option.map_some, WriteResult.relabel, Encoder.abort_relabel]; rfl
    · simp only [Encoder.sendAll, hw, hr, Option.map_none]; rfl

end Sys2Proof.Machine
end

