-- ==== Sys2Proof/Tests/Slice0.lean ====
section
/-! SUPPORT. The model's own tests. Expected results are written out from spec/30_encoding.md and spec/95_test_vectors.md;
the witnesses show, for each statement with hypotheses, a state and operands that meet them. -/

namespace Sys2Proof.Tests

open Sys2Proof Sys2Proof.Machine

/-! ### States for the tests -/

/-- The one transport error that can be written out: which others there are is open (log 6). -/
def anError : TransportError := ⟨0, .inl rfl⟩

/-- An instance with three pixels on each side, nothing configured, two pixels stored (vectors 3.4). -/
def small : State :=
  { State.resetOf ⟨3, 3, 4, 1000000, ⟨.low, .leading⟩, true, true, .held⟩ with
    pixA := [(0, ⟨0x11, 0x22, 0x33⟩), (1, ⟨0xAA, 0xBB, 0xCC⟩)] }

/-- A configured encoder with listed transport replies. -/
def configured (hz : Nat) (replies : List Reply) : Encoder :=
  (Encoder.configure hz ⟨.low, .leading⟩ { Encoder.reset with replies := replies })

/-- The slot `F` of vectors 3.7 and 3.8. -/
def slotF : List Byte := [0x88, 0x88, 0x88, 0x88, 0xEE, 0xEE, 0xEE, 0xEE, 0x88, 0x88, 0x88, 0x88]

/-- The instance of vectors 3.5 and 3.8: one pixel a side, both encoders configured, both buffers encoded. -/
def ready (onError : CsOnError) (hasCs : Bool) (endFrame : Nat) (replies : List Reply) : State :=
  { State.resetOf ⟨1, 1, endFrame, 1000000, ⟨.low, .leading⟩, hasCs, hasCs, onError⟩ with
    wireA := [(0, 0xFF), (1, 0x03), (2, 0x02), (3, 0x01)]
    wireB := Memory.writeSeq [] 0 slotF
    a := configured 1000000 replies
    b := configured 4000000 replies }

/-- The next state, if there is one. -/
def nextOf : Host.Outcome State Fault Refusal → Option State
  | .next t => some t
  | .fault _ => none
  | .refused _ => none

/-- What is read off the next state. -/
def seen {α : Type} (o : Host.Outcome State Fault Refusal) (f : State → α) : Option α := (nextOf o).map f

/-- Bytes of `WIRE_A` from address `a`, and of `WIRE_B`. -/
def bytesA (a n : Nat) (s : State) : List Byte := Memory.readSeq Config.initialWireA s.wireA a n
def bytesB (a n : Nat) (s : State) : List Byte := Memory.readSeq Config.initialWireB s.wireB a n

/-! ### WellFormed: each check refuses an ill-formed term (R94, R12) -/

theorem test_wf_index : Instr.wf (.aEnc1 ⟨0, 0, 0⟩ 0 65535) = true ∧ Instr.wf (.aEnc1 ⟨0, 0, 0⟩ 0 65536) = false := by decide
theorem test_wf_count : Instr.wf (.aEncAll 0 65535) = true ∧ Instr.wf (.aEncAll 0 65536) = false := by decide
theorem test_wf_start : Instr.wf (.bEncRng ⟨0, 0, 0⟩ 65535 65535) = true ∧ Instr.wf (.bEncRng ⟨0, 0, 0⟩ 65536 0) = false := by
  decide
theorem test_wf_stop : Instr.wf (.bEncRng ⟨0, 0, 0⟩ 0 65536) = false := by decide
theorem test_legal_params :
    small.par.legal = true ∧ Params.legal { small.par with nA := 0 } = false ∧
    Params.legal { small.par with nA := 65536 } = false ∧ Params.legal { small.par with nB := 0 } = false ∧
    Params.legal { small.par with nB := 65536 } = false ∧ Params.legal { small.par with endFrameBytes := 0 } = false ∧
    Params.legal { small.par with endFrameBytes := 65536 } = false ∧
    Params.legal { small.par with clockAHz := 0 } = false := by
  decide

/-! ### Decoding: words written out from the formats R91 to R93 and the map R95 -/

theorem test_decode_ainit : decode 0x1000000000000000 = .ok .aInit := by decide
theorem test_decode_ahdr : decode 0x1100000000FF0000 = .ok (.aHdr 255) := by decide
theorem test_decode_aencpx : decode 0x1211223300050000 = .ok (.aEncPx ⟨0x11, 0x22, 0x33⟩ 5) := by decide
theorem test_decode_aenc1 : decode 0x130102030007FFFF = .ok (.aEnc1 ⟨0x01, 0x02, 0x03⟩ 7 65535) := by decide
theorem test_decode_aencall : decode 0x14000000001F0001 = .ok (.aEncAll 31 1) := by decide
theorem test_decode_atx : decode 0x1500000000000000 = .ok .aTx := by decide
theorem test_decode_binit : decode 0x2000000000000000 = .ok .bInit := by decide
theorem test_decode_bencrng : decode 0x21123456FFFF0001 = .ok (.bEncRng ⟨0x12, 0x34, 0x56⟩ 1 65535) := by decide
theorem test_decode_bencall : decode 0x22A55AC300000000 = .ok (.bEncAll ⟨0xA5, 0x5A, 0xC3⟩) := by decide
theorem test_decode_btx : decode 0x2300000000000000 = .ok .bTx := by decide
/-- One must-be-zero bit of each format, at the edges of its field (R91 to R93, R97). -/
theorem test_decode_must_be_zero :
    decode 0x1000000000000001 = .error (.mustBeZeroBitSet "A.INIT") ∧
    decode 0x1100000100280000 = .error (.mustBeZeroBitSet "A.HDR") ∧
    decode 0x1200000000010001 = .error (.mustBeZeroBitSet "A.ENCPX") ∧
    decode 0x1300000001000000 = .error (.mustBeZeroBitSet "A.ENC1") ∧
    decode 0x1480000000050002 = .error (.mustBeZeroBitSet "A.ENCALL") ∧
    decode 0x2200000000000001 = .error (.mustBeZeroBitSet "B.ENCALL") ∧
    decode 0x2300000100000000 = .error (.mustBeZeroBitSet "B.TX") := by
  decide
theorem test_decode_reserved :
    decode 0 = .error (.reservedOpcode 0) ∧ decode 0x1600000000000000 = .error (.reservedOpcode 0x16) ∧
    decode 0xFFFFFFFFFFFFFFFF = .error (.reservedOpcode 0xFF) := by
  decide
theorem test_decode_table_word :
    decodeTableWord 64 0x2112345600020001 = some (.bEncRng ⟨0x12, 0x34, 0x56⟩ 1 2) ∧
    decodeTableWord 64 0x2400000000000000 = none ∧ decodeTableWord 72 0x1000000000000000 = none := by
  decide
theorem test_encode_words :
    encode (.aEnc1 ⟨0x01, 0x02, 0x03⟩ 7 2) = 0x1301020300070002 ∧
    encode (.bEncRng ⟨0x12, 0x34, 0x56⟩ 1 2) = 0x2112345600020001 := by
  decide
/-- R100. -/
theorem test_assembler : Instr.assembler (.aEnc1 ⟨1, 2, 3⟩ 7 2) = "A.ENC1 (1, 2, 3), 7, 2" := by decide

theorem test_assemble_line :
    assembleLine "B.ENC1 (18, 0x34, 86), 2".toList = some [.command 0x2112345600020002] ∧
    assembleLine "A.HDR 256".toList = none ∧ assembleLine "A.ENC1 (1, 2, 3), 7, 65536".toList = none := by decide

/-! ### Encoder A: vectors 3.1 to 3.5 -/

theorem test_hdr_saturates :
    hdrA 0 = 0xE0 ∧ hdrA 5 = 0xE5 ∧ hdrA 30 = 0xFE ∧ hdrA 31 = 0xFF ∧ hdrA 32 = 0xFF ∧ hdrA 40 = 0xFF := by decide
theorem test_ahdr : seen (exec (.aHdr 40) small) (·.response) = some (some ⟨.ok, 0x000000FF, none⟩) := by decide
theorem test_aencpx :
    seen (exec (.aEncPx ⟨0x11, 0x22, 0x33⟩ 5) small) (·.response) = some (some ⟨.ok, 0xE5332211, none⟩) := by decide
/-- The last slot, and the index just past it (a silent no-op, R126). -/
theorem test_aenc1_last_slot :
    seen (exec (.aEnc1 ⟨0x01, 0x02, 0x03⟩ 7 2) small) (bytesA 8 4) = some [0xE7, 0x03, 0x02, 0x01] := by decide
theorem test_aenc1_past_the_end :
    seen (exec (.aEnc1 ⟨0x01, 0x02, 0x03⟩ 7 3) small) (fun t => (t.wireA, t.response)) =
      some ([], some ⟨.ok, 0, none⟩) := by decide
theorem test_aencall_two :
    seen (exec (.aEncAll 5 2) small) (bytesA 0 8) = some [0xE5, 0x33, 0x22, 0x11, 0xE5, 0xCC, 0xBB, 0xAA] := by decide
/-- A count above `N_A` is clipped; a count of 0 writes nothing (R127). -/
theorem test_aencall_clipped :
    seen (exec (.aEncAll 5 65535) small) (fun t => t.wireA.map Prod.fst) = some [0, 1, 2, 3, 4, 5, 6, 7, 8, 9, 10, 11] ∧
    seen (exec (.aEncAll 5 0) small) (·.wireA) = some [] := by decide
/-- X8. -/
theorem test_ainit :
    seen (exec .aInit small) (fun t => (t.a.trace, t.a.busCfg, t.a.cfg, t.a.cs, t.b)) =
      some ([.configure 1000000 ⟨.low, .leading⟩], some ⟨1000000, ⟨.low, .leading⟩⟩, true, .undriven, small.b) := by
  decide
/-- X1. -/
theorem test_atx_not_configured :
    seen (exec .aTx small) (fun t => (t.response, t.a)) = some (some ⟨.notConfigured, 0, none⟩, small.a) := by decide
/-- X2, and the first event is A.INIT's. -/
theorem test_atx_success :
    seen (exec .aTx (ready .held true 4 [.ok, .ok, .ok])) (fun t => (t.response, t.a.cs, t.a.seq, t.a.trace.drop 1)) =
      some (some ⟨.ok, 0, none⟩, .driven true, .idle, [.setLevel false, .write [0x00, 0x00, 0x00, 0x00] .ok,
        .write [0xFF, 0x03, 0x02, 0x01] .ok, .write [0xFF, 0xFF, 0xFF, 0xFF] .ok, .setLevel true]) := by decide
/-- X4: fail on the body, `held`. -/
theorem test_atx_fail_held :
    seen (exec .aTx (ready .held true 4 [.ok, .err anError 2, .ok])) (fun t => (t.response, t.a.cs, t.a.seq, t.a.trace.drop 1)) =
      some (some ⟨.transportError, 0, some anError⟩, .driven false, .idle, [.setLevel false,
        .write [0x00, 0x00, 0x00, 0x00] .ok, .write [0xFF, 0x03, 0x02, 0x01] (.err anError)]) := by decide
/-- X4 again: the start frame and two drawn bytes of the body reached the bus, and the third reply is still to come (R188). -/
theorem test_atx_fail_prefix :
    seen (exec .aTx (ready .held true 4 [.ok, .err anError 2, .ok])) (fun t => (t.a.onBus, t.a.replies)) =
      some ([0x00, 0x00, 0x00, 0x00, 0xFF, 0x03], [.ok]) := by decide
/-- X5: the same, `released`. -/
theorem test_atx_fail_released :
    seen (exec .aTx (ready .released true 4 [.ok, .err anError 0])) (fun t => (t.response, t.a.cs, t.a.trace.drop 3)) =
      some (some ⟨.transportError, 0, some anError⟩, .driven true,
        [.write [0xFF, 0x03, 0x02, 0x01] (.err anError), .setLevel true]) := by decide
/-- X7: no chip-select, six end-frame bytes. -/
theorem test_atx_no_cs :
    seen (exec .aTx (ready .held false 6 [.ok, .ok, .ok])) (fun t => (t.a.cs, t.a.trace.drop 1)) =
      some (.undriven, [.write [0x00, 0x00, 0x00, 0x00] .ok, .write [0xFF, 0x03, 0x02, 0x01] .ok,
        .write [0xFF, 0xFF, 0xFF, 0xFF, 0xFF, 0xFF] .ok]) := by decide

/-! ### Encoder B: vectors 3.6 to 3.8 -/

theorem test_slot_red : encB ⟨0xFF, 0x00, 0x00⟩ = slotF := by decide
theorem test_slot_mixed :
    encB ⟨0x12, 0x34, 0x56⟩ = [0x88, 0xEE, 0x8E, 0x88, 0x88, 0x8E, 0x88, 0xE8, 0x8E, 0x8E, 0x8E, 0xE8] ∧
    encB ⟨0x80, 0x01, 0x7F⟩ = [0x88, 0x88, 0x88, 0x8E, 0xE8, 0x88, 0x88, 0x88, 0x8E, 0xEE, 0xEE, 0xEE] := by decide
theorem test_word : wordB ⟨0xA5, 0x5A, 0xC3⟩ = 0x5AA5C3 := by decide
theorem test_decB : decB [0x8E, 0x8E, 0xE8, 0xE8, 0xE8, 0xE8, 0x8E, 0x8E, 0xEE, 0x88, 0x88, 0xEE] = some 0x5AA5C3 := by decide
theorem test_bencrng_last_slot :
    seen (exec (.bEncRng ⟨0xFF, 0, 0⟩ 2 2) small) (fun t => (bytesB 24 12 t, t.wireB.length, t.response)) =
      some (slotF, 12, some ⟨.ok, 0, none⟩) := by decide
/-- `end = N_B`, an empty range: refused, nothing written (R154). -/
theorem test_bencrng_range_error :
    seen (exec (.bEncRng ⟨0x12, 0x34, 0x56⟩ 0 3) small) (fun t => (t.wireB, t.response)) =
      some ([], some ⟨.rangeError, 0, none⟩) ∧
    seen (exec (.bEncRng ⟨0x12, 0x34, 0x56⟩ 1 0) small) (fun t => (t.wireB, t.response)) =
      some ([], some ⟨.rangeError, 0, none⟩) := by decide
theorem test_bencall :
    seen (exec (.bEncAll ⟨0xFF, 0, 0⟩) small) (fun t => bytesB 0 36 t) = some (slotF ++ slotF ++ slotF) := by decide
theorem test_binit :
    seen (exec .bInit small) (fun t => (t.b.trace, t.b.cfg, t.a)) =
      some ([.configure 4000000 ⟨.low, .leading⟩], true, small.a) := by decide
/-- Y2. -/
theorem test_btx_success :
    seen (exec .bTx (ready .held true 4 [.ok])) (fun t => (t.response, t.b.cs, t.b.trace.drop 1)) =
      some (some ⟨.ok, 0, none⟩, .driven true, [.setLevel false, .write slotF .ok, .setLevel true]) := by decide
/-- Y3. -/
theorem test_btx_fail_held :
    seen (exec .bTx (ready .held true 4 [.err anError 12])) (fun t => (t.response, t.b.cs, t.b.trace.drop 1)) =
      some (some ⟨.transportError, 0, some anError⟩, .driven false, [.setLevel false, .write slotF (.err anError)]) := by decide

/-! ### The step -/

/-- A word presented right after reset runs in the very next step. -/
theorem test_fetch_from_reset :
    seen (step (State.reset.withFetchWord 64 0x1100000000280000)) (·.response) = some (some ⟨.ok, 0xFF, none⟩) ∧
    seen (step (State.reset.withFetchWord 64 0x2400000000000000)) (·.response) =
      some (some ⟨.illegalCommand, 0, none⟩) := by decide
/-- R205: with nothing to do the block keeps its state. -/
theorem test_idle : seen (step State.reset) id = some State.reset := by decide
/-- A write that is never answered leaves the encoder waiting, and then there is no step (U13). -/
theorem test_never_answered :
    seen (exec .aTx (ready .held true 4 [.ok, .never])) (fun t => (t.a.seq, t.a.phase, t.a.cs, t.response)) =
      some (.transmitting, 1, .driven false, none) := by decide
/-- A transmit found in `Selecting` goes on one small step at a time (R129). -/
theorem test_small_step :
    seen (seqRun .A 6 (startTransmit .A (ready .held true 4 [.ok, .ok, .ok]))) id =
      seen (exec .aTx (ready .held true 4 [.ok, .ok, .ok])) id := by decide
/-- R102. -/
theorem test_bencbuf :
    Pseudo.expand (.bEncBuf [⟨1, 2, 3⟩, ⟨4, 5, 6⟩]) = [.bEncRng ⟨1, 2, 3⟩ 0 0, .bEncRng ⟨4, 5, 6⟩ 1 1] := by decide

/-! ### Witnesses: for each statement with hypotheses, a state and operands that meet them, one for each clause at a boundary
value of its range -/

/-- A word next, and the rest of the host's actions. -/
def asks (act : HostAction) : State := { small with host := [act, .loadWireA 0] }

theorem asks_atRest (act : HostAction) : (asks act).atRest := ⟨rfl, rfl⟩

theorem witness_decode_after_encode :
    Instr.wf (.bEncRng ⟨0xFF, 0xFF, 0xFF⟩ 65535 65535) = true ∧ Instr.wf (.aEncAll 255 65535) = true := by decide

theorem witness_encode_after_decode :
    decode 0x21FFFFFFFFFFFFFF = .ok (.bEncRng ⟨0xFF, 0xFF, 0xFF⟩ 65535 65535) := by decide

theorem witness_matching_row :
    (∃ r ∈ opcodeTable, r.selects 0x12FF000000010000 = true) ∧ ∀ r ∈ opcodeTable, r.selects 0x2400000000000000 = false := by
  decide

theorem witness_illegal_word : IllegalWord 0x1311223301050001 ∧ IllegalWord 0x2400000000000000 :=
  ⟨by unfold IllegalWord; decide, by unfold IllegalWord; decide⟩

theorem witness_step_runs :
    (asks (.command 0x1500000000000000)).atRest ∧
    (asks (.command 0x1500000000000000)).host = .command 0x1500000000000000 :: [.loadWireA 0] ∧
    decode 0x1500000000000000 = .ok .aTx ∧
    (asks (.command 0x2400000000000000)).host = .command 0x2400000000000000 :: [.loadWireA 0] ∧
    decode 0x2400000000000000 = .error (.reservedOpcode 0x24) := ⟨asks_atRest _, rfl, by decide, rfl, by decide⟩

/-- Encoder A, and encoder B, in the middle of a transmit. -/
def busyA : State := startTransmit .A (ready .held true 4 [.ok, .ok, .ok])
def busyB : State := startTransmit .B (ready .held true 4 [.ok])

theorem witness_step_serves :
    busyA.a.seq ≠ .idle ∧ (busyB.a.seq = .idle ∧ busyB.b.seq ≠ .idle) ∧ (small.atRest ∧ small.host = []) :=
  ⟨by decide, by decide, ⟨rfl, rfl⟩, rfl⟩

theorem witness_host_accesses :
    (asks (.storePixA 2 ⟨1, 2, 3⟩)).atRest ∧
    ((asks (.storePixA 2 ⟨1, 2, 3⟩)).host = .storePixA 2 ⟨1, 2, 3⟩ :: [.loadWireA 0] ∧ 2 < small.par.nA) ∧
    ((asks (.storeWireA 11 5)).host = .storeWireA 11 5 :: [.loadWireA 0] ∧ 11 < 4 * small.par.nA) ∧
    ((asks (.storeWireB 35 5)).host = .storeWireB 35 5 :: [.loadWireA 0] ∧ 35 < 12 * small.par.nB) ∧
    ((asks (.loadPixA 2)).host = .loadPixA 2 :: [.loadWireA 0] ∧ 2 < small.par.nA) ∧
    ((asks (.loadWireA 11)).host = .loadWireA 11 :: [.loadWireA 0] ∧ 11 < 4 * small.par.nA) ∧
    ((asks (.loadWireB 35)).host = .loadWireB 35 :: [.loadWireA 0] ∧ 35 < 12 * small.par.nB) := by
  refine ⟨asks_atRest _, ?_⟩
  decide

theorem witness_host_access_outside :
    (asks (.storeWireB 36 5)).atRest ∧ (asks (.storeWireB 36 5)).host = .storeWireB 36 5 :: [.loadWireA 0] ∧
    HostAction.target small.par (.storeWireB 36 5) = some (.wireB, 36, 36) ∧
    HostAction.target small.par (.loadPixA 3) = some (.pixA, 3, 3) ∧
    HostAction.target small.par (.loadWireA 12) = some (.wireA, 12, 12) := by
  refine ⟨asks_atRest _, ?_⟩
  decide

theorem witness_while_a_command_runs :
    (busyA.enc .A).seq ≠ .idle ∧ (seen (seqStep .A busyA) (·.a.seq) = some .transmitting) ∧
    (busyB.enc .B).seq ≠ .idle ∧ (seen (seqStep .B busyB) (·.b.seq) = some .transmitting) := by decide

theorem witness_brightness : (31 : Byte).toNat ≤ 31 ∧ 32 ≤ (32 : Byte).toNat ∧ 32 ≤ (255 : Byte).toNat := by decide

theorem witness_enc1 : 2 < small.par.nA ∧ small.par.nA ≤ 3 ∧ small.par.nA ≤ 65535 := by decide

theorem witness_encall : 2 < min 65535 small.par.nA ∧ 1 < min 2 small.par.nA ∧ slotAddrA (min 2 small.par.nA) ≤ 8 := by decide

theorem witness_full_encode : 2 < small.par.nA := by decide

theorem witness_encoding_twice :
    (Instr.bEncAll ⟨1, 2, 3⟩ ≠ .aInit ∧ Instr.bEncAll ⟨1, 2, 3⟩ ≠ .bInit ∧ Instr.bEncAll ⟨1, 2, 3⟩ ≠ .aTx ∧
      Instr.bEncAll ⟨1, 2, 3⟩ ≠ .bTx) ∧
    Memory.wf small.wireA = true ∧ Memory.wf small.wireB = true ∧
    seen (exec (.bEncAll ⟨1, 2, 3⟩) small) (·.wireB.length) = some 36 := by decide

theorem witness_before_init :
    (small.enc .A).cfg = false ∧ (small.enc .B).cfg = false ∧ (∀ x : Side, Instr.aEncAll 5 2 ≠ txCommand x) ∧
    seen (exec (.aEncAll 5 2) small) (·.response) = some (some ⟨.ok, 0, none⟩) :=
  ⟨by decide, by decide, (by intro x; cases x <;> decide), by decide⟩

theorem witness_configured_for_good :
    (ready .held true 4 []).a.cfg = true ∧ (ready .held true 4 []).b.cfg = true ∧
    seen (step (ready .held true 4 [])) (·.a.cfg) = some true ∧ seen (exec .bInit small) (·.b.cfg) = some true := by decide

theorem witness_atx_succeeds :
    (ready .held true 4 [.ok, .ok, .ok]).a.cfg = true ∧ (ready .held true 4 [.ok, .ok, .ok]).a.replyAt .A 0 = .ok ∧
    (ready .held true 4 [.ok, .ok, .ok]).a.replyAt .A 1 = .ok ∧
    (ready .held true 4 [.ok, .ok, .ok]).a.replyAt .A 2 = .ok := by decide

theorem witness_btx_succeeds :
    (ready .released false 4 [.ok]).b.cfg = true ∧ (ready .released false 4 [.ok]).b.replyAt .B 0 = .ok := by decide

/-- The first write fails, and the last. -/
theorem witness_failed_write :
    (((ready .held true 4 [.err anError 4]).enc .A).cfg = true ∧
      ((ready .held true 4 [.err anError 4]).frame .A)[0]? = some [0, 0, 0, 0] ∧
      ((ready .held true 4 [.err anError 4]).enc .A).replyAt .A 0 = .err anError 4) ∧
    (((ready .released true 4 [.ok, .ok, .err anError 0]).frame .A)[2]? = some [0xFF, 0xFF, 0xFF, 0xFF] ∧
      (∀ j, j < 2 → ((ready .released true 4 [.ok, .ok, .err anError 0]).enc .A).replyAt .A j = .ok) ∧
      ((ready .released true 4 [.ok, .ok, .err anError 0]).enc .A).replyAt .A 2 = .err anError 0) ∧
    (((ready .held true 4 [.err anError 4]).enc .B).cfg = true ∧
      ((ready .held true 4 [.err anError 4]).frame .B)[0]? = some slotF ∧
      ((ready .held true 4 [.err anError 4]).enc .B).replyAt .B 0 = .err anError 4) := by decide

theorem witness_unanswered_write :
    ((ready .held true 4 [.ok, .ok, .never]).enc .A).cfg = true ∧
    2 < ((ready .held true 4 [.ok, .ok, .never]).frame .A).length ∧
    (∀ j, j < 2 → ((ready .held true 4 [.ok, .ok, .never]).enc .A).replyAt .A j = .ok) ∧
    ((ready .held true 4 [.ok, .ok, .never]).enc .A).replyAt .A 2 = .never ∧
    ((ready .held true 4 [.never]).enc .B).replyAt .B 0 = .never := by decide

theorem witness_small_steps :
    ((small.enc .A).cfg = false ∧ seen (exec (txCommand .A) small) (·.a.seq) = some .idle) ∧
    (((ready .held true 4 [.ok, .ok, .ok]).enc .A).cfg = true ∧
      seen (exec (txCommand .A) (ready .held true 4 [.ok, .ok, .ok])) (·.a.seq) = some .idle) ∧
    (((ready .held true 4 [.never]).enc .B).cfg = true ∧
      seen (exec (txCommand .B) (ready .held true 4 [.never])) (·.b.seq) = some .transmitting) := by decide

theorem witness_bus_configuration :
    seen (exec (txCommand .A) (ready .held true 4 [.ok, .ok, .ok])) (·.a.busCfg) =
      some (some ⟨1000000, ⟨.low, .leading⟩⟩) := by decide

theorem witness_slot : 11 < 12 ∧ encB ⟨1, 2, 3⟩ = encB ⟨1, 2, 3⟩ ∧ (7 : Symbol) ≠ 0xE ∧ (7 : Symbol) ≠ 0x8 := by decide

theorem witness_encrng :
    (2 ≤ 2 ∧ 2 < small.par.nB) ∧ (0 ≤ 2 ∧ 2 < small.par.nB) ∧ (0 < 1 ∨ small.par.nB ≤ 0) ∧ (3 < 0 ∨ small.par.nB ≤ 3) := by
  decide

theorem witness_encall_b : 1 ≤ small.par.nB ∧ 2 < small.par.nB := by decide

theorem witness_encbuf :
    ([⟨1, 2, 3⟩, ⟨4, 5, 6⟩, ⟨7, 8, 9⟩] : List Pixel) ≠ [] ∧
    ([⟨1, 2, 3⟩, ⟨4, 5, 6⟩, ⟨7, 8, 9⟩] : List Pixel).length ≤ small.par.nB ∧
    2 < ([⟨1, 2, 3⟩, ⟨4, 5, 6⟩, ⟨7, 8, 9⟩] : List Pixel).length := by decide

theorem witness_legal_parameters : small.par.legal = true ∧ Config.resetParams.legal = true := by decide

/-- A sound state in the middle of a transmit: it has all that holds in every run, and a step. -/
theorem witness_sound_busy : busyA.Inv ∧ GoesOn (step busyA) := by
  refine ⟨⟨by decide, by decide, by decide, by decide, by decide, by decide, by decide, ?_, ?_, by decide, by decide,
    (by intro r h; cases h), (by intro r h; cases h)⟩, ⟨_, rfl⟩⟩
  · exact ⟨by decide, by decide, by decide, by decide, by decide, by decide, by decide, by decide, by decide⟩
  · exact ⟨by decide, by decide, by decide, by decide, by decide, by decide, by decide, by decide, by decide⟩

/-- A sound state at rest whose host reaches outside: it has no step. -/
theorem witness_sound_astray :
    ({ State.reset with host := [.loadPixA 1] } : State).Inv ∧ ({ State.reset with host := [.loadPixA 1] } : State).atRest ∧
    ({ State.reset with host := [.loadPixA 1] } : State).hostAstray := by
  refine ⟨⟨by decide, by decide, by decide, by decide, by decide, by decide, by decide, ?_, ?_, by decide, by decide,
    (by intro r h; cases h), (by intro r h; cases h)⟩, ⟨rfl, rfl⟩, _, _, _, _, _, rfl, rfl, by decide⟩
  · exact ⟨by decide, by decide, by decide, by decide, by decide, by decide, by decide, by decide, by decide⟩
  · exact ⟨by decide, by decide, by decide, by decide, by decide, by decide, by decide, by decide, by decide⟩

/-- An encoder that waits on a write that is never answered. -/
theorem witness_stuck :
    ((nextOf (exec .aTx (ready .held true 4 [.never]))).map (fun t => decide (t.a.seq = .transmitting ∧ t.a.phase < frameWrites .A ∧
      t.a.nextReply .A = .never))) = some true := by decide

theorem witness_parameters_and_traces :
    GoesOn (step busyA) ∧ (small.atRest ∧ (∀ w rest, small.host ≠ .command w :: rest) ∧ GoesOn (step small)) :=
  ⟨⟨_, rfl⟩, ⟨rfl, rfl⟩, (by intro w rest h; cases h), ⟨_, rfl⟩⟩

theorem witness_no_shared_state :
    (Instr.side .aTx = .A ∧ GoesOn (exec .aTx small)) ∧ (Instr.side (.bEncAll ⟨1, 2, 3⟩) = .B ∧
      GoesOn (exec (.bEncAll ⟨1, 2, 3⟩) small)) :=
  ⟨⟨rfl, _, rfl⟩, rfl, _, rfl⟩

theorem witness_own_state :
    (Instr.bTx ≠ .aTx ∧ Instr.bTx ≠ .aInit ∧ Instr.aTx ≠ .bTx ∧ Instr.aTx ≠ .bInit) ∧ GoesOn (exec .bTx small) ∧
    GoesOn (exec .aTx small) := ⟨by decide, ⟨_, rfl⟩, _, rfl⟩

theorem witness_one_response :
    (ready .held true 4 [.never]).response = none ∧
    seen (exec .bTx (ready .held true 4 [.never])) (fun t => (t.response, t.b.seq, t.b.nextReply .B)) =
      some (none, .transmitting, .never) ∧
    seen (exec (.bEncRng ⟨1, 2, 3⟩ 0 1) (ready .held true 4 [])) (·.response) = some (some ⟨.rangeError, 0, none⟩) := by decide

theorem witness_chip_select :
    (ready .held true 4 [.err anError 0]).b.cfg = true ∧ (ready .held true 4 [.err anError 0]).response = none ∧
    seen (exec (txCommand .B) (ready .held true 4 [.err anError 0])) (·.response) =
      some (some ⟨.transportError, 0, some anError⟩) ∧
    seen (exec (txCommand .B) (ready .held false 4 [.ok])) (·.response) = some (some ⟨.ok, 0, none⟩) ∧
    (ready .held false 4 [.ok]).par.hasCs .B = false := by decide

/-- The transports list what they answer to the coming writes, one of them an error. -/
theorem witness_relabelled_answers :
    (ready .held true 4 [.ok, .err anError 2, .ok]).answersRelabelled (fun _ => anError) ∧
    GoesOn (exec .aTx (ready .held true 4 [.ok, .err anError 2, .ok])) ∧
    GoesOn (step (ready .held true 4 [.ok, .err anError 2, .ok])) :=
  ⟨by unfold State.answersRelabelled; intro x; cases x <;> decide, ⟨_, rfl⟩, _, rfl⟩

end Sys2Proof.Tests
end

/-! The encoders share no state (spec/00_scope.md R2): a command commutes with replacing everything that belongs to the
other encoder, so it cannot read any of it. -/

namespace Sys2Proof.Machine

/-- The state `s` with the encoder other than `x`, and that encoder's memories, taken from `o` (R2, R22, R24, R25). -/
def State.withOther (s : State) (x : Side) (o : State) : State :=
  match x with
  | .A => { s with b := o.b, wireB := o.wireB }
  | .B => { s with a := o.a, pixA := o.pixA, wireA := o.wireA }

section WithOther

variable (s : State) (x : Side) (o : State)

@[simp] theorem State.withOther_par : (s.withOther x o).par = s.par := by cases x <;> rfl
@[simp] theorem State.withOther_enc : (s.withOther x o).enc x = s.enc x := by cases x <;> rfl
@[simp] theorem State.withOther_frame : (s.withOther x o).frame x = s.frame x := by cases x <;> rfl

@[simp] theorem State.withOther_setEnc (e : Encoder) :
    (s.withOther x o).setEnc x e = (s.setEnc x e).withOther x o := by cases x <;> rfl

@[simp] theorem State.withOther_returnOk (data : BitVec 32) :
    (s.withOther x o).returnOk data = (s.returnOk data).withOther x o := by cases x <;> rfl

@[simp] theorem State.withOther_raise (r : Exn) :
    (s.withOther x o).raise r = (s.raise r).withOther x o := by cases x <;> rfl

@[simp] theorem State.withOther_endTransmit (fin : TxEnd) :
    (s.withOther x o).endTransmit fin = (s.endTransmit fin).withOther x o := by
  cases fin with
  | done => exact s.withOther_returnOk x o 0
  | failed t => exact s.withOther_raise x o (.transportError t)
  | hung => rfl

/-- A transmit reads its own encoder, its own frame and the parameters only (R128, R156). -/
@[simp] theorem State.withOther_transmit : (s.withOther x o).transmit x = (s.transmit x).withOther x o := by
  unfold State.transmit
  rw [State.withOther_enc]
  split
  · simp
  · exact s.withOther_raise x o .notConfigured

/-- `A.ENCALL`'s loop reads `PIX_A` only (R127). -/
@[simp] theorem State.withOther_encodeLeading (v : Byte) : ∀ n : Nat,
    (s.withOther .A o).encodeLeading v n = (s.encodeLeading v n).withOther .A o
  | 0 => rfl
  | n + 1 => by simp only [State.encodeLeading, State.withOther_encodeLeading v n]; rfl

/-- `B.ENCRNG`'s loop reads no memory (R154). -/
@[simp] theorem State.withOther_fillSlots (p : Pixel) (start : Nat) : ∀ n : Nat,
    (s.withOther .B o).fillSlots p start n = (s.fillSlots p start n).withOther .B o
  | 0 => rfl
  | n + 1 => by simp only [State.fillSlots, State.withOther_fillSlots p start n]; rfl

@[simp] theorem State.withOther_encodeRange (p : Pixel) (start stop : Nat) :
    (s.withOther .B o).encodeRange p start stop = (s.encodeRange p start stop).withOther .B o := by
  unfold State.encodeRange
  rw [State.withOther_par]
  split
  · exact s.withOther_raise .B o .rangeError
  · simp

end WithOther

/-- A command reads nothing of the other encoder: it commutes with replacing that encoder and its memories (R2). -/
theorem exec_withOther {i : Instr} {s t : State} {x : Side} (hx : i.side = x) (h : exec i s = .next t) (o : State) :
    exec i (s.withOther x o) = .next (t.withOther x o) := by
  subst hx
  cases i with
  | aInit => cases h; rfl
  | aHdr b => cases h; rfl
  | aEncPx p b => cases h; rfl
  | aEnc1 p b k =>
    simp only [exec, execAEnc1, State.withOther_par] at h ⊢
    split at h <;> cases h
    · rw [if_pos ‹_›]; rfl
    · rw [if_neg ‹_›]; rfl
  | aEncAll b n => cases h; simp [exec, execAEncAll, Instr.side]
  | aTx => cases h; simp [exec, execATx, Instr.side]
  | bInit => cases h; rfl
  | bEncRng p k n => cases h; simp [exec, execBEncRng, Instr.side]
  | bEncAll p => cases h; simp [exec, execBEncAll, Instr.side]
  | bTx => cases h; simp [exec, execBTx, Instr.side]

/-- A command changes nothing of the other encoder: what it leaves there is what it found (R2). -/
theorem exec_keeps_other {i : Instr} {s t : State} {x : Side} (hx : i.side = x) (h : exec i s = .next t) :
    t.withOther x s = t := by
  subst hx
  obtain ⟨e, m, r, ⟨hi, hs⟩ | ⟨hi, hs⟩⟩ := exec_frame i s <;> cases hs.symm.trans h <;> rw [hi] <;> rfl

/-- Settles O47: each command commutes with replacing the other encoder and its memories, and leaves them as it finds
them. -/
theorem encodersShareNoState : Obligations.EncodersShareNoState := by
  constructor
  · intro i s t e m hi h
    have hkeep := exec_keeps_other hi h
    exact ⟨(congrArg State.b hkeep).symm, (congrArg State.wireB hkeep).symm,
      exec_withOther hi h { s with b := e, wireB := m }⟩
  · intro i s t e mp m hi h
    have hkeep := exec_keeps_other hi h
    exact ⟨(congrArg State.a hkeep).symm, (congrArg State.pixA hkeep).symm, (congrArg State.wireA hkeep).symm,
      exec_withOther hi h { s with a := e, pixA := mp, wireA := m }⟩

end Sys2Proof.Machine

/-! What every step keeps (spec/10_state.md): each move of the machine preserves the invariant `State.Inv`, so a step
from a sound state ends in a sound state; and the machine is sound at reset. -/

namespace Sys2Proof.Machine

/-! ### One encoder -/

/-- The write loop keeps what holds of an encoder, if no more writes are left than its phase counter has room for. -/
theorem Encoder.Inv.sendAll {p : Params} {x : Side} : ∀ {ws : List (List Byte)} {e : Encoder}, e.Inv p x →
    e.seq = .transmitting → e.phase + ws.length ≤ frameWrites x → (Encoder.sendAll p x ws e).1.Inv p x
  | [], _, h, hs, _ => (h.writesDone hs).deselect rfl
  | w :: ws, e, h, hs, hn => by
    rw [List.length_cons] at hn
    rcases Encoder.sendAll_cons p x w ws e with ⟨-, heq⟩ | ⟨t, sent, -, heq⟩ | ⟨-, heq⟩ <;> rw [heq]
    · exact (h.writeOk hs (by omega) w).sendAll (by simpa using hs) (by simp; omega)
    · exact h.writeErr hs w t sent
    · exact h

/-- At reset an encoder has done nothing (R43). -/
theorem Encoder.Inv.reset (p : Params) (x : Side) : Encoder.reset.Inv p x where
  phaseZero _ := rfl
  phaseBound := Nat.zero_le _
  csIsLast := rfl
  noSetLevel _ _ := List.not_mem_nil
  busCfgIsLast := rfl
  cfgIff := rfl
  busyConfigured h := absurd rfl h
  selected h := by simp [Encoder.reset] at h
  released _ _ h := by simp [Encoder.reset] at h

/-- A frame has as many writes as the phase counter counts (R32). -/
theorem State.frame_length (s : State) (x : Side) : (s.frame x).length = frameWrites x := by cases x <;> rfl

/-! ### Responses -/

/-- R104: the form of a response. -/
def Response.Sound (r : Response) : Prop :=
  (r.err.isSome = true ↔ r.status = .transportError) ∧ (r.status ≠ .ok → r.data = 0)

theorem okResponse_sound (data : BitVec 32) : (okResponse data).Sound := by simp [Response.Sound, okResponse]

theorem Exn.response_sound (e : Exn) : e.response.Sound := by
  cases e <;> simp [Response.Sound, Exn.response, Exn.status, Exn.err]

/-! ### The state's operations -/

section
variable {s : State} {x : Side} {e : Encoder}

theorem State.atRest.seq (h : s.atRest) (x : Side) : (s.enc x).seq = .idle := by
  cases x
  · exact h.1
  · exact h.2

theorem State.Inv.enc (h : s.Inv) (x : Side) : (s.enc x).Inv s.par x := by
  cases x
  · exact h.encA
  · exact h.encB

/-- Only one encoder is ever busy (R203). -/
theorem State.Inv.others_idle (h : s.Inv) (hx : (s.enc x).seq ≠ .idle) : ∀ y, y ≠ x → (s.enc y).seq = .idle := by
  intro y hy
  cases x with
  | A => cases y with
    | A => exact absurd rfl hy
    | B => exact h.oneBusy.resolve_left hx
  | B => cases y with
    | A => exact h.oneBusy.resolve_right hx
    | B => exact absurd rfl hy

/-- No response stands while an encoder is busy (R104). -/
theorem State.Inv.no_response (h : s.Inv) (hx : (s.enc x).seq ≠ .idle) : s.response = none := by
  cases x
  · exact h.noResponseYet (.inl hx)
  · exact h.noResponseYet (.inr hx)

/-- With the other encoder idle, one encoder may be replaced by a sound one, busy only while no response stands. -/
theorem State.Inv.setEnc (h : s.Inv) (ho : ∀ y, y ≠ x → (s.enc y).seq = .idle) (he : e.Inv s.par x)
    (hr : e.seq ≠ .idle → s.response = none) : (s.setEnc x e).Inv := by
  cases x
  · have hb : s.b.seq = .idle := ho .B (by simp)
    exact { h with
      encA := he, oneBusy := .inr hb, noResponseYet := fun hb' => hr (hb'.resolve_right (absurd hb ·)) }
  · have ha : s.a.seq = .idle := ho .A (by simp)
    exact { h with
      encB := he, oneBusy := .inl ha, noResponseYet := fun ha' => hr (ha'.resolve_left (absurd ha ·)) }

theorem State.setEnc_atRest (ho : ∀ y, y ≠ x → (s.enc y).seq = .idle) (he : e.seq = .idle) :
    (s.setEnc x e).atRest := by
  cases x
  · exact ⟨he, ho .B (by simp)⟩
  · exact ⟨ho .A (by simp), he⟩

/-- At rest any response of the form of R104 may be given. -/
theorem State.Inv.respond (h : s.Inv) (hs : s.atRest) {r : Response} (hr : r.Sound) :
    ({ s with response := some r } : State).Inv :=
  { h with
    noResponseYet := fun hb => absurd hb (by simp [hs.1, hs.2])
    responseErr := fun q hq => by cases hq; exact hr.1
    responseData := fun q hq => by cases hq; exact hr.2 }

theorem State.Inv.returnOk (h : s.Inv) (hs : s.atRest) (data : BitVec 32) : (s.returnOk data).Inv :=
  h.respond hs (okResponse_sound data)

theorem State.Inv.raise (h : s.Inv) (hs : s.atRest) (r : Exn) : (s.raise r).Inv :=
  h.respond hs r.response_sound

theorem State.Inv.withHost (h : s.Inv) (rest : List HostAction) : (s.withHost rest).Inv := { h with }

theorem State.Inv.issue (h : s.Inv) (rest : List HostAction) : (s.issue rest).Inv :=
  { h with
    noResponseYet := fun _ => rfl
    responseErr := fun _ hr => by cases hr
    responseData := fun _ hr => by cases hr }

end

/-! ### The encode loops -/

section
variable (s : State) (v : Byte) (p : Pixel) (start n : Nat)

@[simp] theorem State.encodeLeading_par : (s.encodeLeading v n).par = s.par := by
  obtain ⟨m, hm⟩ := s.encodeLeading_frame v n
  rw [hm]

@[simp] theorem State.encodeLeading_atRest : (s.encodeLeading v n).atRest ↔ s.atRest := by
  obtain ⟨m, hm⟩ := s.encodeLeading_frame v n
  rw [hm]; rfl

@[simp] theorem State.fillSlots_par : (s.fillSlots p start n).par = s.par := by
  obtain ⟨m, hm⟩ := s.fillSlots_frame p start n
  rw [hm]

@[simp] theorem State.fillSlots_atRest : (s.fillSlots p start n).atRest ↔ s.atRest := by
  obtain ⟨m, hm⟩ := s.fillSlots_frame p start n
  rw [hm]; rfl

end

/-- `A.ENCALL`'s loop stays inside `WIRE_A` (R57). -/
theorem State.Inv.encodeLeading {s : State} (h : s.Inv) (v : Byte) : ∀ {n : Nat}, n ≤ s.par.nA →
    (s.encodeLeading v n).Inv
  | 0, _ => h
  | n + 1, hn => by
    have ih := h.encodeLeading v (n := n) (by omega)
    obtain ⟨hw, hi⟩ := State.storeSlotA_wf n ((s.encodeLeading v n).readPixA n) v _ ih.wireAwf ih.wireAInside
      (by simp; omega)
    exact { ih with wireAwf := hw, wireAInside := hi }

/-- `B.ENCRNG`'s loop stays inside `WIRE_B` (R57). -/
theorem State.Inv.fillSlots {s : State} (h : s.Inv) (p : Pixel) (start : Nat) : ∀ {n : Nat}, start + n ≤ s.par.nB →
    (s.fillSlots p start n).Inv
  | 0, _ => h
  | n + 1, hn => by
    have ih := h.fillSlots p start (n := n) (by omega)
    obtain ⟨hw, hi⟩ := State.storeSlotB_wf (start + n) p _ ih.wireBwf ih.wireBInside (by simp; omega)
    exact { ih with wireBwf := hw, wireBInside := hi }

/-! ### Commands -/

section
variable {s t : State}

/-- A range command writes only after its range check (R154, R180). -/
theorem State.Inv.encodeRange (h : s.Inv) (hs : s.atRest) (p : Pixel) (start stop : Nat) :
    (s.encodeRange p start stop).Inv := by
  unfold State.encodeRange
  split
  · exact h.raise hs .rangeError
  · exact (h.fillSlots p start (by omega)).returnOk (by simpa using hs) 0

/-- A transmit ends Idle with a response, or waits in `Transmitting` without one (R71, R128, R186). -/
theorem State.Inv.transmit (h : s.Inv) (hs : s.atRest) (hr : s.response = none) (x : Side) : (s.transmit x).Inv := by
  have ho : ∀ y, y ≠ x → (s.enc y).seq = .idle := fun y _ => hs.seq y
  rcases s.transmit_cases x with ⟨-, heq⟩ | ⟨hc, e, fin, hsend, heq⟩ <;> rw [heq]
  · exact h.raise hs .notConfigured
  · have hinv : (Encoder.sendAll s.par x (s.frame x) ((s.enc x).begin.select (s.par.hasCs x))).1.Inv s.par x :=
      (((h.enc x).begin (hs.seq x) hc).select rfl).sendAll (by simp) (by simp [State.frame_length])
    have hend := Encoder.sendAll_end s.par x (s.frame x) ((s.enc x).begin.select (s.par.hasCs x)) (by simp)
    rw [hsend] at hinv hend
    have ht : (s.setEnc x e).Inv := h.setEnc ho hinv (fun _ => hr)
    rcases hend with ⟨rfl, -⟩ | ⟨rfl, hidle, -⟩ | ⟨r, rfl, hidle, -⟩
    · exact ht
    · exact ht.returnOk (State.setEnc_atRest ho hidle) 0
    · exact ht.raise (State.setEnc_atRest ho hidle) _

/-- An INIT keeps both encoders Idle (R123, R153). -/
theorem State.Inv.init (h : s.Inv) (hs : s.atRest) (x : Side) (hz : Nat) (m : BusMode) :
    ((s.setEnc x ((s.enc x).configure hz m)).returnOk 0).Inv := by
  have ho : ∀ y, y ≠ x → (s.enc y).seq = .idle := fun y _ => hs.seq y
  have hidle : ((s.enc x).configure hz m).seq = .idle := hs.seq x
  exact (h.setEnc ho ((h.enc x).configure hz m) (absurd hidle ·)).returnOk (State.setEnc_atRest ho hidle) 0

/-- Every command issued at rest keeps the invariant. -/
theorem exec_inv {i : Instr} (h : s.Inv) (hs : s.atRest) (hr : s.response = none) (he : exec i s = .next t) :
    t.Inv := by
  cases i with
  | aInit => cases he; exact h.init hs .A _ _
  | aHdr b => cases he; exact h.returnOk hs _
  | aEncPx p b => cases he; exact h.returnOk hs _
  | aEnc1 p b k =>
    simp only [exec, execAEnc1] at he
    split at he <;> cases he
    · obtain ⟨hw, hi⟩ := State.storeSlotA_wf k p b s h.wireAwf h.wireAInside ‹_›
      have hstore : (s.storeSlotA k p b).Inv := { h with wireAwf := hw, wireAInside := hi }
      exact hstore.returnOk hs 0
    · exact h.returnOk hs 0
  | aEncAll b n => cases he; exact (h.encodeLeading b (Nat.min_le_right _ _)).returnOk (by simpa using hs) 0
  | aTx => cases he; exact h.transmit hs hr .A
  | bInit => cases he; exact h.init hs .B _ _
  | bEncRng p k n => cases he; exact h.encodeRange hs p k n
  | bEncAll p => cases he; exact h.encodeRange hs p 0 _
  | bTx => cases he; exact h.transmit hs hr .B

/-! ### Steps -/

/-- The host's next action keeps the invariant: a store goes through only inside its space (R50, R57). -/
theorem hostStep_inv (h : s.Inv) (hs : s.atRest) (ht : hostStep s = .next t) : t.Inv := by
  rcases hostStep_cases ht with rfl | ⟨w, rest, i, -, -, he⟩ | ⟨w, rest, -, rfl⟩ | ⟨rest, k, p, hk, rfl⟩ |
    ⟨rest, a, v, ha, rfl⟩ | ⟨rest, a, v, ha, rfl⟩ | ⟨rest, d, rfl⟩
  · exact h
  · exact exec_inv (h.issue rest) hs rfl he
  · exact (h.issue rest).raise hs .illegalCommand
  · exact { h.withHost rest with
      pixAwf := Memory.set_wf h.pixAwf, pixAInside := Memory.writeSeq_inside (vs := [p]) h.pixAInside hk }
  · exact { h.withHost rest with
      wireAwf := Memory.set_wf h.wireAwf, wireAInside := Memory.writeSeq_inside (vs := [v]) h.wireAInside ha }
  · exact { h.withHost rest with
      wireBwf := Memory.set_wf h.wireBwf, wireBInside := Memory.writeSeq_inside (vs := [v]) h.wireBInside ha }
  · exact { h.withHost rest with }

/-- Every step of a busy encoder's sequencer keeps the invariant (R129, R157). -/
theorem seqStep_inv {x : Side} (h : s.Inv) (hx : (s.enc x).seq ≠ .idle) (ht : seqStep x s = .next t) : t.Inv := by
  have ho := h.others_idle hx
  have hr := h.no_response hx
  have he := h.enc x
  rcases seqStep_cases x s t ht with ⟨hs, rfl⟩ | ⟨hs, w, hw, -, rfl⟩ | ⟨hs, w, r, sent, -, -, rfl⟩ |
    ⟨hs, -, rfl⟩ | ⟨hs, rfl⟩
  · exact h.setEnc ho (he.select hs) (fun _ => hr)
  · have hphase : (s.enc x).phase < frameWrites x := by
      simpa [State.frame_length] using (List.getElem?_eq_some_iff.mp hw).1
    exact h.setEnc ho (he.writeOk hs hphase w) (fun _ => hr)
  · exact (h.setEnc ho (he.writeErr hs w r sent) (fun _ => hr)).raise (State.setEnc_atRest ho (by simp)) _
  · exact h.setEnc ho (he.writesDone hs) (fun _ => hr)
  · exact (h.setEnc ho (he.deselect hs) (fun _ => hr)).returnOk (State.setEnc_atRest ho (by simp)) 0

end

/-- Settles O42: a busy encoder's sequencer step and the host's next action at rest each keep the invariant. -/
theorem everyStepKeepsTheMachineSound : Obligations.EveryStepKeepsTheMachineSound := by
  intro s t h ht
  rcases step_cases ht with ⟨ha, hseq⟩ | ⟨-, hb, hseq⟩ | ⟨hs, hhost⟩
  · exact seqStep_inv (x := .A) h ha hseq
  · exact seqStep_inv (x := .B) h hb hseq
  · exact hostStep_inv h hs hhost

/-! ### Reset -/

/-- Nothing is stored, no encoder is busy and no response stands at reset (R43, R44). -/
theorem State.Inv.resetOf {p : Params} (hp : p.legal = true) : (State.resetOf p).Inv where
  parLegal := hp
  pixAwf := rfl
  wireAwf := rfl
  wireBwf := rfl
  pixAInside _ hc := by cases hc
  wireAInside _ hc := by cases hc
  wireBInside _ hc := by cases hc
  encA := Encoder.Inv.reset p .A
  encB := Encoder.Inv.reset p .B
  oneBusy := .inl rfl
  noResponseYet _ := rfl
  responseErr _ hr := by cases hr
  responseData _ hr := by cases hr

/-- Settles O41: with legal parameters the reset state is sound, and the parameters of `State.reset` are legal. -/
theorem resetIsSound : Obligations.ResetIsSound :=
  ⟨fun _ hp => State.Inv.resetOf hp, State.Inv.resetOf (by decide)⟩

/-- Settles O40: the fields of the reset state stand in its definition, and an empty memory reads as its free values. -/
theorem resetIsAsTheSpecSays : Obligations.ResetIsAsTheSpecSays := by
  refine ⟨fun p x => ?_, Config.resetParams, rfl⟩
  cases x <;> exact ⟨rfl, rfl, rfl, rfl, rfl, rfl, rfl, rfl, fun _ => ⟨rfl, rfl, rfl⟩⟩

end Sys2Proof.Machine

/-! What a command or a step leaves unchanged (spec/10_state.md): no step writes the parameters, clears `X.cfg` or takes
an event back from a trace, at most one encoder moves, and each command keeps to its own part of the state. -/

namespace Sys2Proof.Machine

/-! ### One encoder's moves only add to its trace -/

theorem Encoder.select_trace_prefix (e : Encoder) (c : Bool) : e.trace <+: (e.select c).trace := by
  cases c <;> simp

theorem Encoder.deselect_trace_prefix (e : Encoder) (c : Bool) : e.trace <+: (e.deselect c).trace := by
  cases c <;> simp

theorem Encoder.abort_trace_prefix (e : Encoder) (p : Params) (x : Side) : e.trace <+: (e.abort p x).trace := by
  rw [Encoder.abort_trace]
  split <;> simp

/-- The write loop only appends to the trace (R34). -/
theorem Encoder.sendAll_trace_prefix (p : Params) (x : Side) : ∀ (ws : List (List Byte)) (e : Encoder),
    e.trace <+: (Encoder.sendAll p x ws e).1.trace
  | [], e => e.writesDone.deselect_trace_prefix (p.hasCs x)
  | w :: ws, e => by
    rcases Encoder.sendAll_cons p x w ws e with ⟨-, heq⟩ | ⟨t, sent, -, heq⟩ | ⟨-, heq⟩ <;> rw [heq]
    · exact List.IsPrefix.trans (by simp) (Encoder.sendAll_trace_prefix p x ws _)
    · exact List.IsPrefix.trans (by simp) (Encoder.abort_trace_prefix _ p x)

/-- So does a transmit. -/
theorem State.transmit_trace_prefix (x : Side) (s : State) : (s.enc x).trace <+: ((s.transmit x).enc x).trace := by
  rw [State.transmit_enc]
  split
  · exact ((s.enc x).begin.select_trace_prefix _).trans (Encoder.sendAll_trace_prefix _ x _ _)
  · exact List.prefix_rfl

/-! ### What every command and every step has in common -/

/-- From `s` to `t` no encoder but that of `x` moves; its trace only grows (R34), its `X.cfg` is not cleared (R36), and
the parameters stay (R39). -/
structure State.Advances (x : Side) (s t : State) : Prop where
  par : t.par = s.par
  others : ∀ y, y ≠ x → t.enc y = s.enc y
  trace : (s.enc x).trace <+: (t.enc x).trace
  cfg : (s.enc x).cfg = true → (t.enc x).cfg = true

section
variable {x : Side} {s t : State} {e : Encoder}

/-- Where neither encoder moves. -/
theorem State.Advances.of_encoders (x : Side) (hp : t.par = s.par) (ha : t.a = s.a) (hb : t.b = s.b) :
    s.Advances x t := by
  have henc : ∀ y, t.enc y = s.enc y := fun y => by
    cases y
    · exact ha
    · exact hb
  exact ⟨hp, fun y _ => henc y, by rw [henc], by rw [henc]; exact id⟩

/-- Replacing one encoder leaves the other. -/
theorem State.setEnc_enc_of_ne : ∀ {x y : Side}, y ≠ x → (s.setEnc x e).enc y = s.enc y
  | .A, .A, h => absurd rfl h
  | .A, .B, _ => rfl
  | .B, .A, _ => rfl
  | .B, .B, h => absurd rfl h

/-- Where the encoder of `x` is replaced by one with a longer trace. -/
theorem State.Advances.setEnc (ht : (s.enc x).trace <+: e.trace) (hc : (s.enc x).cfg = true → e.cfg = true) :
    s.Advances x (s.setEnc x e) :=
  ⟨s.setEnc_par e x, fun _ hy => State.setEnc_enc_of_ne hy, by simpa using ht, by simpa using hc⟩

theorem State.Advances.returnOk (h : s.Advances x t) (data : BitVec 32) : s.Advances x (t.returnOk data) :=
  ⟨h.par, by simpa using h.others, by simpa using h.trace, by simpa using h.cfg⟩

theorem State.Advances.raise (h : s.Advances x t) (r : Exn) : s.Advances x (t.raise r) :=
  ⟨h.par, by simpa using h.others, by simpa using h.trace, by simpa using h.cfg⟩

/-- A transmit moves its own encoder. -/
theorem State.Advances.transmit (x : Side) (s : State) : s.Advances x (s.transmit x) where
  par := by
    obtain ⟨e, r, heq⟩ := s.transmit_frame x
    rw [heq]; simp
  others y hy := by
    obtain ⟨e, r, heq⟩ := s.transmit_frame x
    rw [heq, ← State.setEnc_enc_of_ne (s := s) (e := e) hy]
    cases y <;> rfl
  trace := s.transmit_trace_prefix x
  cfg h := by rw [(s.transmit_cfg x).1, h]

/-- A command moves no encoder but its own. -/
theorem exec_advances {i : Instr} (h : exec i s = .next t) : s.Advances i.side t := by
  rcases exec_shape h with ⟨rfl, rfl⟩ | ⟨rfl, rfl⟩ | ⟨x, rfl, rfl⟩ | ⟨-, -, m, r, rfl⟩ | ⟨-, -, m, r, rfl⟩
  · exact (State.Advances.setEnc (List.prefix_append _ _) (fun _ => rfl)).returnOk 0
  · exact (State.Advances.setEnc (List.prefix_append _ _) (fun _ => rfl)).returnOk 0
  · cases x <;> exact State.Advances.transmit _ s
  · exact State.Advances.of_encoders _ rfl rfl rfl
  · exact State.Advances.of_encoders _ rfl rfl rfl

/-- A step of a sequencer moves no encoder but its own. -/
theorem seqStep_advances (h : seqStep x s = .next t) : s.Advances x t := by
  rcases seqStep_cases x s t h with ⟨-, rfl⟩ | ⟨-, w, -, -, rfl⟩ | ⟨-, w, r, sent, -, -, rfl⟩ | ⟨-, -, rfl⟩ | ⟨-, rfl⟩
  · exact State.Advances.setEnc (Encoder.select_trace_prefix _ _) (by simp)
  · exact State.Advances.setEnc (by simp) (by simp)
  · exact (State.Advances.setEnc (List.IsPrefix.trans (by simp) (Encoder.abort_trace_prefix _ _ x)) (by simp)).raise _
  · exact State.Advances.setEnc (by simp) (by simp)
  · exact (State.Advances.setEnc (Encoder.deselect_trace_prefix _ _) (by simp)).returnOk 0

/-- An access of the host, and an idle step, move no encoder (R34). -/
theorem hostStep_encoders (hc : ∀ w rest, s.host ≠ .command w :: rest) (h : hostStep s = .next t) :
    t.par = s.par ∧ t.a = s.a ∧ t.b = s.b := by
  rcases hostStep_cases h with rfl | ⟨w, rest, -, hh, -⟩ | ⟨w, rest, hh, -⟩ | ⟨_, _, _, -, rfl⟩ |
    ⟨_, _, _, -, rfl⟩ | ⟨_, _, _, -, rfl⟩ | ⟨_, _, rfl⟩
  · exact ⟨rfl, rfl, rfl⟩
  · exact absurd hh (hc w rest)
  · exact absurd hh (hc w rest)
  all_goals exact ⟨rfl, rfl, rfl⟩

/-- The host's next action moves at most one encoder. -/
theorem hostStep_advances (h : hostStep s = .next t) : ∃ x, s.Advances x t := by
  rcases hostStep_cases h with rfl | ⟨w, rest, i, -, -, he⟩ | ⟨w, rest, -, rfl⟩ | ⟨_, _, _, -, rfl⟩ |
    ⟨_, _, _, -, rfl⟩ | ⟨_, _, _, -, rfl⟩ | ⟨_, _, rfl⟩
  · exact ⟨.A, State.Advances.of_encoders _ rfl rfl rfl⟩
  · obtain ⟨hp, ho, ht, hc⟩ := exec_advances he
    exact ⟨i.side, hp, by simpa using ho, by simpa using ht, by simpa using hc⟩
  all_goals exact ⟨.A, State.Advances.of_encoders _ rfl rfl rfl⟩

/-- Every step moves at most one encoder. -/
theorem step_advances (h : step s = .next t) : ∃ x, s.Advances x t := by
  rcases step_cases h with ⟨-, hseq⟩ | ⟨-, -, hseq⟩ | ⟨-, hhost⟩
  · exact ⟨.A, seqStep_advances hseq⟩
  · exact ⟨.B, seqStep_advances hseq⟩
  · exact hostStep_advances hhost

/-- No `X.cfg` is cleared, that of the encoder that moves or of the other (R36). -/
theorem State.Advances.cfg_enc (h : s.Advances x t) (y : Side) (hy : (s.enc y).cfg = true) :
    (t.enc y).cfg = true := by
  by_cases hxy : y = x
  · subst hxy; exact h.cfg hy
  · rw [h.others y hxy, hy]

end

@[simp] theorem State.endTransmit_enc (s : State) (x : Side) (fin : TxEnd) :
    (s.endTransmit fin).enc x = s.enc x := by cases fin <;> simp [State.endTransmit]

/-- At rest, an access of the host inside its space is performed (R50, R103). -/
theorem step_of_access {s t : State} {space : Space} {a size : Nat} (hs : s.atRest)
    (h : hostStep s = guardAddress space a size t) (ha : a < size) : step s = .next t := by
  simp [step, hs.1, hs.2, h, guardAddress, ha]

/-! ### The obligations -/

/-- Settles O23: `exec_shape` leaves an INIT as the only command that touches `X.cfg`, and `step_advances` carries it
through every step. -/
theorem configuredOnlyByInitAndForGood : Obligations.ConfiguredOnlyByInitAndForGood := by
  constructor
  · intro i s t h
    rcases exec_shape h with ⟨rfl, rfl⟩ | ⟨rfl, rfl⟩ | ⟨x, rfl, rfl⟩ | ⟨⟨ha, hb, -⟩, -, m, r, rfl⟩ |
      ⟨⟨ha, hb, -⟩, -, m, r, rfl⟩
    · simp
    · simp
    · have hown := (s.transmit_cfg x).1
      have hother := (State.Advances.transmit x s).others
      cases x with
      | A => simpa [txCommand] using And.intro hown (congrArg Encoder.cfg (hother .B (by simp)))
      | B => simpa [txCommand] using And.intro (congrArg Encoder.cfg (hother .A (by simp))) hown
    · simp [ha, hb]
    · simp [ha, hb]
  · intro s t h
    obtain ⟨x, hx⟩ := step_advances h
    exact ⟨hx.cfg_enc .A, hx.cfg_enc .B⟩

/-- Settles O45: the parameters stay in `exec_advances` and in `step_advances`. -/
theorem parametersAreNeverWritten : Obligations.ParametersAreNeverWritten := by
  refine ⟨fun i s t h => (exec_advances h).par, fun s t h => ?_⟩
  obtain ⟨x, hx⟩ := step_advances h
  exact hx.par

/-- Settles O46: the encoder that moves appends to its trace, the other keeps its own; a host access moves neither. -/
theorem tracesOnlyGrow : Obligations.TracesOnlyGrow := by
  constructor
  · intro s t h
    obtain ⟨x, hx⟩ := step_advances h
    obtain ⟨evs, hevs⟩ := hx.trace
    cases x with
    | A =>
      have hb : t.b = s.b := hx.others .B (by simp)
      exact ⟨evs, [], hevs.symm, by simp [hb], .inr rfl⟩
    | B =>
      have ha : t.a = s.a := hx.others .A (by simp)
      exact ⟨[], evs, by simp [ha], hevs.symm, .inl rfl⟩
  · intro s t hs hc h
    rcases step_cases h with ⟨ha, -⟩ | ⟨-, hb, -⟩ | ⟨-, hhost⟩
    · exact absurd hs.1 ha
    · exact absurd hs.2 hb
    · obtain ⟨-, ha, hb⟩ := hostStep_encoders hc hhost
      exact ⟨congrArg Encoder.trace ha, congrArg Encoder.trace hb⟩

/-- Settles O48: `exec_shape` says which fields each kind of command writes. -/
theorem eachCommandKeepsToItsOwnState : Obligations.EachCommandKeepsToItsOwnState := by
  intro i s t h
  rcases exec_shape h with ⟨rfl, rfl⟩ | ⟨rfl, rfl⟩ | ⟨x, rfl, rfl⟩ | ⟨⟨hai, hbi, hat, hbt⟩, -, m, r, rfl⟩ |
    ⟨⟨hai, hbi, hat, hbt⟩, -, m, r, rfl⟩
  · simp
  · simp
  · have hbus := (s.transmit_cfg x).2
    obtain ⟨e, r, heq⟩ := s.transmit_frame x
    rw [heq] at hbus ⊢
    cases x <;> simpa [txCommand] using hbus
  · simp [hai, hbi, hat, hbt]
  · simp [hai, hbi, hat, hbt]

/-- Settles O50: of the ends of the write loop, `done` and `failed` answer, and `Encoder.sendAll_end` gives the
chip-select level of each. -/
theorem chipSelectAfterATransmit : Obligations.ChipSelectAfterATransmit := by
  intro x s t r hc hnone he hr
  cases (exec_txCommand x s).symm.trans he
  have hcfg := (s.transmit_cfg x).1.trans hc
  rcases s.transmit_cases x with ⟨hc', -⟩ | ⟨-, e, fin, hsend, heq⟩
  · exact absurd hc (by simp [hc'])
  have hend := Encoder.sendAll_end s.par x (s.frame x) ((s.enc x).begin.select (s.par.hasCs x)) (by simp)
  simp only [hsend, Encoder.select_cs, Encoder.begin_cs] at hend
  simp only [heq, State.endTransmit_enc, State.setEnc_enc] at hr hcfg ⊢
  rcases hend with ⟨rfl, -⟩ | ⟨rfl, hidle, hphase, hcs⟩ | ⟨q, rfl, hidle, hphase, hcs⟩
  · simp [State.endTransmit, hnone] at hr
  · cases hr
    exact ⟨hidle, hphase, hcfg, fun hn => by simp [hcs, hn], fun hy _ => by simp [hcs, hy], nofun⟩
  · cases hr
    refine ⟨hidle, hphase, hcfg, fun hn => by simp [hcs, hn], nofun, fun hy _ => ?_⟩
    cases hce : s.par.csOnError <;> simp [hcs, hy, hce]

/-- Settles O10: each access inside its space is performed, and `Memory.read_set` says what a store leaves in each cell. -/
theorem hostAccessesBetweenCommands : Obligations.HostAccessesBetweenCommands := by
  intro s rest hs
  exact ⟨fun k p hh hk => ⟨_, step_of_access hs (by rw [hostStep, hh]; rfl) hk, Memory.read_set _ _ k p⟩,
    fun a v hh ha => ⟨_, step_of_access hs (by rw [hostStep, hh]; rfl) ha, Memory.read_set _ _ a v⟩,
    fun a v hh ha => ⟨_, step_of_access hs (by rw [hostStep, hh]; rfl) ha, Memory.read_set _ _ a v⟩,
    fun k hh hk => step_of_access hs (by rw [hostStep, hh]; rfl) hk,
    fun a hh ha => step_of_access hs (by rw [hostStep, hh]; rfl) ha,
    fun a hh ha => step_of_access hs (by rw [hostStep, hh]; rfl) ha⟩

end Sys2Proof.Machine

/-! The memories and their order (spec/20_memory.md): which host accesses go through, what a sequencer step leaves alone,
where the machine stops, and how a slot of `WIRE_B` leaves on the bus. -/

namespace Sys2Proof.Machine

/-! ### Going on and stopping -/

@[simp] theorem goesOn_next (t : State) : GoesOn (.next t) := ⟨t, rfl⟩

@[simp] theorem not_goesOn_fault (f : Fault) : ¬ GoesOn (.fault f) := by
  rintro ⟨t, h⟩
  cases h

/-- Every command has a next state, an error being a response (R192). -/
theorem exec_goesOn (i : Instr) (s : State) : GoesOn (exec i s) := by
  obtain ⟨e, m, r, ⟨-, h⟩ | ⟨-, h⟩⟩ := exec_frame i s <;> exact ⟨_, h⟩

/-- So has every command word, an illegal one being refused with a response (R183). -/
theorem runWord_goesOn (w : CmdWord) (s : State) : GoesOn (runWord w s) := by
  rcases runWord_cases w s with ⟨i, -, h⟩ | ⟨e, -, h⟩ <;> rw [h]
  · exact exec_goesOn i s
  · exact goesOn_next _

/-! ### Host accesses -/

theorem guardAddress_outside {space : Space} {a size : Nat} (t : State) (h : size ≤ a) :
    guardAddress space a size t = .fault (.noSuchAddress space a) := if_neg (Nat.not_lt.mpr h)

@[simp] theorem guardAddress_goesOn {space : Space} {a size : Nat} {t : State} :
    GoesOn (guardAddress space a size t) ↔ a < size := by
  constructor
  · rintro ⟨u, h⟩
    exact (guardAddress_next h).1
  · intro h
    exact ⟨t, if_pos h⟩

/-- A host action names an address, or is a command word (R103). -/
theorem HostAction.target_eq_none {p : Params} {act : HostAction} (h : act.target p = none) :
    ∃ w, act = .command w := by
  cases act with
  | command w => exact ⟨w, rfl⟩
  | _ => cases h

section
variable {s : State} {act : HostAction} {rest : List HostAction}

/-- A host access is guarded by the address it names and the size of its space (R50). -/
theorem hostStep_access {space : Space} {a size : Nat} (hh : s.host = act :: rest)
    (ht : act.target s.par = some (space, a, size)) : ∃ t, hostStep s = guardAddress space a size t := by
  cases act <;> cases ht <;> exact ⟨_, by rw [hostStep, hh]⟩

/-- The host's next action is performed unless it names an address outside its space (R50, R103, R205). -/
theorem hostStep_goesOn : GoesOn (hostStep s) ↔ ¬ s.hostAstray := by
  cases hh : s.host with
  | nil => simp [hostStep, State.hostAstray, hh]
  | cons act rest =>
    cases ht : act.target s.par with
    | none =>
      obtain ⟨w, rfl⟩ := HostAction.target_eq_none ht
      have hgo : GoesOn (hostStep s) := by rw [hostStep, hh]; exact runWord_goesOn w _
      simp [hgo, State.hostAstray, hh, HostAction.target]
    | some named =>
      obtain ⟨space, a, size⟩ := named
      obtain ⟨t, hstep⟩ := hostStep_access hh ht
      simp [hstep, State.hostAstray, hh, ht]

/-- At rest a step is the host's next action (R103). -/
theorem State.atRest.step_eq (hs : s.atRest) : step s = hostStep s := by simp [step, hs.1, hs.2]

end

/-- Settles O11: the guard of the access the host makes next refuses an address past its space. -/
theorem hostAccessOutsideItsSpaceStops : Obligations.HostAccessOutsideItsSpaceStops := by
  intro s act rest space a size hs hh ht ha
  obtain ⟨t, hstep⟩ := hostStep_access hh ht
  rw [hs.step_eq, hstep, guardAddress_outside t ha]

/-! ### Sequencer steps -/

section
variable {x : Side} {s t : State}

/-- A step of a sequencer changes nothing but its encoder and the response. -/
theorem seqStep_frame (h : seqStep x s = .next t) : ∃ e r, t = { s.setEnc x e with response := r } := by
  rcases seqStep_cases x s t h with ⟨-, rfl⟩ | ⟨-, w, -, -, rfl⟩ | ⟨-, w, r, sent, -, -, rfl⟩ | ⟨-, -, rfl⟩ | ⟨-, rfl⟩
  · exact ⟨_, (s.setEnc x _).response, rfl⟩
  · exact ⟨_, (s.setEnc x _).response, rfl⟩
  · exact ⟨_, some (Exn.transportError r).response, rfl⟩
  · exact ⟨_, (s.setEnc x _).response, rfl⟩
  · exact ⟨_, some (okResponse 0), rfl⟩

/-- On a pending write the transport never answers, the sequencer has no step (R71). -/
theorem seqStep_unanswered (hs : (s.enc x).seq = .transmitting) (hp : (s.enc x).phase < (s.frame x).length)
    (hr : (s.enc x).nextReply x = .never) : seqStep x s = .fault .transportNeverAnswers := by
  simp [seqStep, hs, List.getElem?_eq_getElem hp, seqWrite, Encoder.write, hr]

/-- A pending write the transport answers, with success or with an error, is a step (R129 T2, R186). -/
theorem seqWrite_goesOn (bytes : List Byte) (hr : (s.enc x).nextReply x ≠ .never) : GoesOn (seqWrite x bytes s) := by
  unfold seqWrite
  rcases (s.enc x).write_cases x bytes with ⟨-, h⟩ | ⟨r, sent, -, h⟩ | ⟨h, -⟩
  · rw [h]; exact goesOn_next _
  · rw [h]; exact goesOn_next _
  · exact absurd h hr

/-- A busy encoder goes on unless it waits on a write that is never answered: the invariant keeps its phase within the
frame (R32), so the sequencer is in a state R129 and R157 list. -/
theorem State.Inv.seqStep_goesOn (h : s.Inv) (hx : (s.enc x).seq ≠ .idle) :
    GoesOn (seqStep x s) ↔ ¬ s.stuckOn x := by
  constructor
  · rintro hgo ⟨hs, hp, hr⟩
    rw [seqStep_unanswered hs (by rwa [State.frame_length]) hr] at hgo
    exact not_goesOn_fault _ hgo
  · intro hstuck
    unfold seqStep
    cases hs : (s.enc x).seq with
    | idle => exact absurd hs hx
    | selecting => exact goesOn_next _
    | deselecting => exact goesOn_next _
    | transmitting =>
      have hbound := (h.enc x).phaseBound
      rw [← s.frame_length x] at hbound
      rcases hbound.lt_or_eq with hp | hp
      · simp only [List.getElem?_eq_getElem hp]
        exact seqWrite_goesOn _ fun hr => hstuck ⟨hs, by rwa [← s.frame_length x], hr⟩
      · simp [hp]

end

/-- Settles O12: by `seqStep_frame` only the encoder of `x` and the response can change. -/
theorem noHostAccessWhileACommandRuns : Obligations.NoHostAccessWhileACommandRuns := by
  intro x s t _ h
  obtain ⟨e, r, rfl⟩ := seqStep_frame h
  refine ⟨by simp, by simp, by simp, by simp, by simp, by simp, ?_, ?_⟩
  · rintro rfl; rfl
  · rintro rfl; rfl

/-- Only an encoder that is transmitting can wait on a write. -/
theorem State.not_stuckOn_of_idle {x : Side} {s : State} (h : (s.enc x).seq = .idle) : ¬ s.stuckOn x := by
  simp [State.stuckOn, h]

/-- Settles O43: a step is that of the one busy encoder's sequencer or, at rest, the host's next action, and each of the
two stops in its own way only. -/
theorem machineStopsOnlyStuckOrAstray : Obligations.MachineStopsOnlyStuckOrAstray := by
  intro s h
  by_cases ha : s.a.seq = .idle
  · have hA : ¬ s.stuckOn .A := State.not_stuckOn_of_idle ha
    by_cases hb : s.b.seq = .idle
    · have hs : s.atRest := ⟨ha, hb⟩
      have hB : ¬ s.stuckOn .B := State.not_stuckOn_of_idle hb
      simp [hs.step_eq, hostStep_goesOn, hA, hB, hs]
    · have hs : ¬ s.atRest := fun hs => hb hs.2
      have hstep : step s = seqStep .B s := by simp [step, ha, hb]
      rw [hstep, h.seqStep_goesOn (x := .B) hb]
      simp [hA, hs]
  · have hs : ¬ s.atRest := fun hs => ha hs.1
    have hB : ¬ s.stuckOn .B := State.not_stuckOn_of_idle (h.others_idle (x := .A) ha .B (by simp))
    have hstep : step s = seqStep .A s := by simp [step, ha]
    rw [hstep, h.seqStep_goesOn (x := .A) ha]
    simp [hB, hs]

/-! ### A transmit that waits -/

/-- The encoder of `x` once the first `k` writes of its transmit have succeeded (R129 T2). -/
def State.afterWrites (x : Side) (k : Nat) (s : State) : Encoder :=
  ((s.enc x).begin.select (s.par.hasCs x)).accepted ((s.frame x).take k)

section
variable {x : Side} {s : State} {k : Nat}

@[simp] theorem State.afterWrites_seq : (s.afterWrites x k).seq = .transmitting := by
  simp [State.afterWrites, Encoder.accepted]

@[simp] theorem State.afterWrites_cs :
    (s.afterWrites x k).cs = if s.par.hasCs x = true then .driven false else (s.enc x).cs := by
  simp [State.afterWrites, Encoder.accepted]

@[simp] theorem State.afterWrites_trace : (s.afterWrites x k).trace =
    (s.enc x).trace ++ (if s.par.hasCs x = true then [.setLevel false] else []) ++
      ((s.frame x).take k).map (fun w => .write w .ok) := by
  cases h : s.par.hasCs x <;> simp [State.afterWrites, Encoder.accepted, h]

theorem State.afterWrites_phase (hk : k ≤ (s.frame x).length) : (s.afterWrites x k).phase = k := by
  simp [State.afterWrites, Encoder.accepted, hk]

/-- The reply to the next write is then the one numbered `k` (R184). -/
theorem State.afterWrites_nextReply (hk : k ≤ (s.frame x).length) :
    (s.afterWrites x k).nextReply x = (s.enc x).replyAt x k := by
  have hlen : ((s.frame x).take k).length = k := by simp [hk]
  calc (s.afterWrites x k).nextReply x
      = ((s.enc x).begin.select (s.par.hasCs x)).replyAt x ((s.frame x).take k).length :=
        Encoder.nextReply_congr rfl rfl
    _ = (s.enc x).replyAt x k := by rw [hlen]; exact Encoder.replyAt_congr k (by simp) (by simp)

/-- A transmit whose first `k` writes succeed comes down to its write loop over the others (R128, R129 T2). -/
theorem State.sendAll_afterWrites (hk : k ≤ (s.frame x).length) (hok : ∀ j, j < k → (s.enc x).replyAt x j = .ok) :
    Encoder.sendAll s.par x (s.frame x) ((s.enc x).begin.select (s.par.hasCs x)) =
      Encoder.sendAll s.par x ((s.frame x).drop k) (s.afterWrites x k) := by
  have haccepted := Encoder.sendAll_accepted s.par x ((s.frame x).drop k) ((s.frame x).take k)
    ((s.enc x).begin.select (s.par.hasCs x)) fun j hj => by
      rw [← hok j (by rw [List.length_take] at hj; omega)]
      exact Encoder.replyAt_congr j (by simp) (by simp)
  rwa [List.take_append_drop] at haccepted

/-- A transmit whose write number `k` is never answered stops there and gives no response (R71). -/
theorem State.transmit_unanswered (hc : (s.enc x).cfg = true) (hk : k < (s.frame x).length)
    (hok : ∀ j, j < k → (s.enc x).replyAt x j = .ok) (hnever : (s.enc x).replyAt x k = .never) :
    s.transmit x = s.setEnc x (s.afterWrites x k) := by
  have hnext : (s.afterWrites x k).nextReply x = .never := by rw [State.afterWrites_nextReply hk.le, hnever]
  have hsend : Encoder.sendAll s.par x ((s.frame x).drop k) (s.afterWrites x k) = (s.afterWrites x k, .hung) := by
    rw [List.drop_eq_getElem_cons hk]
    simp [Encoder.sendAll, Encoder.write, hnext]
  simp [State.transmit, hc, State.sendAll_afterWrites hk.le hok, hsend, State.endTransmit]

end

/-- Settles O28: the transmit leaves its encoder as `State.afterWrites` says, and `seqStep_unanswered` refuses the next
step. -/
theorem unansweredWriteLeavesTheEncoderTransmitting :
    Obligations.UnansweredWriteLeavesTheEncoderTransmitting := by
  intro x s k hc hk hok hnever
  have hphase := State.afterWrites_phase hk.le
  refine ⟨s.setEnc x (s.afterWrites x k), ?_, by simp, by simpa using hphase, fun hcs => by simp [hcs], by simp,
    by simp, by simp, by simp, by simp, ?_⟩
  · rw [exec_txCommand, State.transmit_unanswered hc hk hok hnever]
  · exact seqStep_unanswered (by simp) (by simpa [hphase] using hk)
      (by simpa [State.afterWrites_nextReply hk.le] using hnever)

/-! ### The bits of a slot on the bus -/

/-- R83, R166: the symbol of a colour bit on the bus, one level a symbol-period. -/
def symbolLevels (bit : Bool) : List Bool :=
  if bit = true then [true, true, true, false] else [true, false, false, false]

/-- The bus bits of a sequence are those of its bytes one after another (R53). -/
theorem busBits_eq_flatMap (bytes : List Byte) : busBits bytes = bytes.flatMap byteBits := by
  induction bytes with
  | nil => rfl
  | cons v rest ih => rw [busBits, ih, List.flatMap_cons]

/-- A byte of two symbols leaves as the symbol of its high nibble and then that of its low nibble (R52, R54). -/
theorem byteBits_symbols (first second : Bool) :
    byteBits (((symB first).setWidth 8 <<< 4) ||| (symB second).setWidth 8) =
      symbolLevels first ++ symbolLevels second := by
  cases first <;> cases second <;> rfl

/-- Byte `j` of a slot carries the colour bits number `2 * j` and `2 * j + 1`, counted from the most significant (R52). -/
theorem byteBits_slotByteB (w : ColourWord) (j : Nat) : byteBits (slotByteB w j) =
    symbolLevels (w.getLsbD (23 - 2 * j)) ++ symbolLevels (w.getLsbD (23 - (2 * j + 1))) := by
  rw [slotByteB, byteBits_symbols, show 22 - 2 * j = 23 - (2 * j + 1) by omega]

/-- A range taken two numbers at a time. -/
theorem flatMap_range_pairs {α : Type} (f : Nat → List α) (n : Nat) :
    (List.range n).flatMap (fun j => f (2 * j) ++ f (2 * j + 1)) = (List.range (2 * n)).flatMap f := by
  induction n with
  | zero => rfl
  | succ n ih => simp [Nat.mul_succ, List.range_succ, ih]

/-- Settles O34: each of the twelve bytes leaves as two symbols, and the pairs make up the 24 colour bits in order. -/
theorem slotLeavesAsTwentyFourSymbols : Obligations.SlotLeavesAsTwentyFourSymbols := by
  intro p
  calc busBits (encB p)
      = (List.range 12).flatMap (fun j => byteBits (slotByteB (wordB p) j)) := by
        rw [busBits_eq_flatMap, encB, List.flatMap_map]
    _ = (List.range 12).flatMap (fun j => symbolLevels ((wordB p).getLsbD (23 - 2 * j)) ++
          symbolLevels ((wordB p).getLsbD (23 - (2 * j + 1)))) := by simp only [byteBits_slotByteB]
    _ = (List.range 24).flatMap (fun i => symbolLevels ((wordB p).getLsbD (23 - i))) :=
        flatMap_range_pairs (fun i => symbolLevels ((wordB p).getLsbD (23 - i))) 12

end Sys2Proof.Machine

/-! Encoding and decoding (spec/30_encoding.md): the operands of an assembled word, a word as its own operands written
back, and the row that selects a word. -/

namespace Sys2Proof

/-! ### Decoding a word that has been encoded -/

section
variable (o r g b v : Byte) (h l : BitVec 16)

@[simp] theorem operandPixel_assemble : operandPixel (assemble o r g b h l) = ⟨r, g, b⟩ := by simp [operandPixel]

@[simp] theorem operandBrightness_assemble : operandBrightness (assemble o r g b (0#8 ++ v) l) = v := by
  rw [operandBrightness_eq, fieldHi_assemble, (brightness_half v).2]

@[simp] theorem operandLo_assemble : operandLo (assemble o r g b h l) = l.toNat := by simp [operandLo]

@[simp] theorem operandHi_assemble : operandHi (assemble o r g b h l) = h.toNat := by simp [operandHi]

end

/-- An index or count that fits its field is read back (R94). -/
theorem toNat_ofNat_of_indexFits {n : Nat} (h : indexFits n = true) : (BitVec.ofNat 16 n).toNat = n := by
  rw [BitVec.toNat_ofNat, Nat.mod_eq_of_lt (of_decide_eq_true h)]

/-- Settles O1: the fields of each encoded word are those of its format, and decoding by fields finds the row and reads
the operands back. -/
theorem decodeAfterEncodeIsIdentity : Obligations.DecodeAfterEncodeIsIdentity := by
  intro i hwf
  rw [decode_by_fields]
  cases i with
  | aInit => simp [encode, formatZ]
  | aHdr v => simp [encode, formatP, brightness_half]
  | aEncPx p v => simp [encode, formatP, brightness_half]
  | aEnc1 p v k => simp [encode, formatP, brightness_half, toNat_ofNat_of_indexFits hwf]
  | aEncAll v n => simp [encode, formatP, brightness_half, toNat_ofNat_of_indexFits hwf]
  | aTx => simp [encode, formatZ]
  | bInit => simp [encode, formatZ]
  | bEncRng p k n =>
    obtain ⟨hk, hn⟩ := (Bool.and_eq_true _ _).mp hwf
    simp [encode, formatR, toNat_ofNat_of_indexFits hk, toNat_ofNat_of_indexFits hn]
  | bEncAll p => simp [encode, formatR]
  | bTx => simp [encode, formatZ]

/-! ### Encoding the command of a word that decodes -/

/-- A natural number read from a 16-bit field fits it (R94). -/
theorem indexFits_toNat (h : BitVec 16) : indexFits h.toNat = true := decide_eq_true h.isLt

section
variable {w : CmdWord} {o : Byte}

/-- Format R has no must-be-zero bit of its own: every word is its operands in that format (R93). -/
theorem formatR_operands (ho : fieldOpcode w = o) :
    formatR o (operandPixel w) (operandLo w) (operandHi w) = w := by
  simp [formatR, operandPixel, operandLo, operandHi, ← ho, assemble_fields]

/-- A word whose byte [31:24] is zero is its operands in format P (R92). -/
theorem formatP_operands (ho : fieldOpcode w = o) (hz : fieldHi w &&& 0xFF00 = 0) :
    formatP o (operandPixel w) (operandBrightness w) (operandLo w) = w := by
  have hhalf := half_of_brightness (fieldHi w) hz
  simp [formatP, operandPixel, operandLo, operandBrightness_eq, hhalf, ← ho, assemble_fields]

/-- A word with every field below the opcode zero is format Z (R91). -/
theorem formatZ_operands (ho : fieldOpcode w = o)
    (hz : fieldRed w = 0 ∧ fieldGreen w = 0 ∧ fieldBlue w = 0 ∧ fieldHi w = 0 ∧ fieldLo w = 0) :
    formatZ o = w := by
  obtain ⟨hr, hg, hb, hh, hl⟩ := hz
  calc formatZ o
      = assemble (fieldOpcode w) (fieldRed w) (fieldGreen w) (fieldBlue w) (fieldHi w) (fieldLo w) := by
        rw [ho, hr, hg, hb, hh, hl, formatZ]
    _ = w := assemble_fields w

theorem operandPixel_eq_zero (hr : fieldRed w = 0) (hg : fieldGreen w = 0) (hb : fieldBlue w = 0) :
    operandPixel w = ⟨0, 0, 0⟩ := by rw [operandPixel, hr, hg, hb]

theorem operandLo_eq_zero (hl : fieldLo w = 0) : operandLo w = 0 := by simp [operandLo, hl]

theorem operandHi_eq_zero (hh : fieldHi w = 0) : operandHi w = 0 := by simp [operandHi, hh]

end

/-- Settles O2: the row that decodes a word fixes its must-be-zero fields, so the word is its own operands in the format
of the row. -/
theorem encodeAfterDecodeIsIdentity : Obligations.EncodeAfterDecodeIsIdentity := by
  intro w i h
  rw [decode_by_fields] at h
  split_ifs at h with haInit haHdr haEncPx haEnc1 haEncAll haTx hbInit hbEncRng hbEncAll hbTx <;> cases h
  · exact ⟨rfl, formatZ_operands haInit.1 haInit.2⟩
  · obtain ⟨ho, hr, hg, hb, hz, hl⟩ := haHdr
    have hword := formatP_operands ho hz
    rw [operandPixel_eq_zero hr hg hb, operandLo_eq_zero hl] at hword
    exact ⟨rfl, hword⟩
  · obtain ⟨ho, hz, hl⟩ := haEncPx
    have hword := formatP_operands ho hz
    rw [operandLo_eq_zero hl] at hword
    exact ⟨rfl, hword⟩
  · exact ⟨indexFits_toNat _, formatP_operands haEnc1.1 haEnc1.2⟩
  · obtain ⟨ho, hr, hg, hb, hz⟩ := haEncAll
    have hword := formatP_operands ho hz
    rw [operandPixel_eq_zero hr hg hb] at hword
    exact ⟨indexFits_toNat _, hword⟩
  · exact ⟨rfl, formatZ_operands haTx.1 haTx.2⟩
  · exact ⟨rfl, formatZ_operands hbInit.1 hbInit.2⟩
  · exact ⟨Bool.and_eq_true_iff.mpr ⟨indexFits_toNat _, indexFits_toNat _⟩, formatR_operands hbEncRng⟩
  · obtain ⟨ho, hh, hl⟩ := hbEncAll
    have hword := formatR_operands ho
    rw [operandLo_eq_zero hl, operandHi_eq_zero hh] at hword
    exact ⟨rfl, hword⟩
  · exact ⟨rfl, formatZ_operands hbTx.1 hbTx.2⟩

/-! ### The row that selects a word -/

theorem fieldOpcode_and (w m : CmdWord) : fieldOpcode (w &&& m) = fieldOpcode w &&& fieldOpcode m := by
  simp [fieldOpcode, BitVec.extractLsb'_and]

/-- Every row of R95 masks the whole opcode and matches its own. -/
theorem opcodeTable_opcode_bits : ∀ r ∈ opcodeTable, fieldOpcode r.mask = 0xFF ∧ fieldOpcode r.mtch = r.opcode := by
  decide

/-- A row selects only words of its own opcode (R95). -/
theorem opcode_of_selects {w : CmdWord} {r : OpRow} (hr : r ∈ opcodeTable) (hs : r.selects w = true) :
    r.opcode = fieldOpcode w := by
  obtain ⟨hmask, hmtch⟩ := opcodeTable_opcode_bits r hr
  have hword : w &&& r.mask = r.mtch := eq_of_beq hs
  rw [← hmtch, ← hword, fieldOpcode_and, hmask]
  exact byte_and_ones _

/-- The ten opcodes are distinct (R95), so the opcode names the row. -/
theorem opcodeTable_opcodes_nodup : (opcodeTable.map OpRow.opcode).Nodup := by decide

theorem row_unique {w : CmdWord} {r r' : OpRow} (hr : r ∈ opcodeTable) (hr' : r' ∈ opcodeTable)
    (hs : r.selects w = true) (hs' : r'.selects w = true) : r = r' :=
  List.inj_on_of_nodup_map opcodeTable_opcodes_nodup hr hr'
    ((opcode_of_selects hr hs).trans (opcode_of_selects hr' hs').symm)

/-- A word decodes to the command of the row that selects it (R96). -/
theorem decode_of_selects {w : CmdWord} {r : OpRow} (hr : r ∈ opcodeTable) (hs : r.selects w = true) :
    decode w = .ok (r.operands w) := by
  cases hfind : opcodeTable.find? (fun r => r.selects w) with
  | none => exact absurd hs (List.find?_eq_none.mp hfind r hr)
  | some r' =>
    have hs' : r'.selects w = true := List.find?_some (p := fun r : OpRow => r.selects w) hfind
    obtain rfl := row_unique hr (List.mem_of_find?_eq_some hfind) hs hs'
    simp only [decode, hfind]

/-- A word that no row selects does not decode (R97). -/
theorem decode_of_no_row {w : CmdWord} (h : ∀ r ∈ opcodeTable, r.selects w = false) :
    decode w = .error (whyIllegal w) := by
  have hfind : opcodeTable.find? (fun r => r.selects w) = none := List.find?_eq_none.mpr (by simpa using h)
  simp only [decode, hfind]

/-- Settles O4: rows are told apart by their opcodes, so the row the decoder finds is the only one that selects the
word. -/
theorem decodeFollowsTheOneMatchingRow : Obligations.DecodeFollowsTheOneMatchingRow := by
  refine ⟨fun w => ?_, fun w r hr hs => decode_of_selects hr hs, fun w h => ⟨_, decode_of_no_row h⟩⟩
  refine (List.Nodup.of_map _ opcodeTable_opcodes_nodup).imp_of_mem ?_
  intro r r' hr hr' hne hboth
  exact hne (row_unique hr hr' hboth.1 hboth.2)

/-! ### Illegal words -/

/-- The must-be-zero bits of each format, field by field (R91 to R93). -/
theorem illegalWord_by_fields (w : CmdWord) : IllegalWord w ↔
    if fieldOpcode w = 0x10 ∨ fieldOpcode w = 0x15 ∨ fieldOpcode w = 0x20 ∨ fieldOpcode w = 0x23 then
      ¬ (fieldRed w = 0 ∧ fieldGreen w = 0 ∧ fieldBlue w = 0 ∧ fieldHi w = 0 ∧ fieldLo w = 0)
    else if fieldOpcode w = 0x11 then
      ¬ (fieldRed w = 0 ∧ fieldGreen w = 0 ∧ fieldBlue w = 0 ∧ fieldHi w &&& 0xFF00 = 0) ∨ ¬ fieldLo w = 0
    else if fieldOpcode w = 0x12 then ¬ fieldHi w &&& 0xFF00 = 0 ∨ ¬ fieldLo w = 0
    else if fieldOpcode w = 0x13 then ¬ fieldHi w &&& 0xFF00 = 0
    else if fieldOpcode w = 0x14 then
      ¬ (fieldRed w = 0 ∧ fieldGreen w = 0 ∧ fieldBlue w = 0 ∧ fieldHi w &&& 0xFF00 = 0)
    else if fieldOpcode w = 0x21 then False
    else if fieldOpcode w = 0x22 then ¬ (fieldHi w = 0 ∧ fieldLo w = 0)
    else True := by
  simp only [IllegalWord, ne_eq, mustBeZero_below, mustBeZero_pixel, mustBeZero_half, mustBeZero_range]
  rfl

/-- The word of a command has no must-be-zero bit set (R106). -/
theorem encode_not_illegalWord (i : Instr) : ¬ IllegalWord (encode i) := by
  rw [illegalWord_by_fields]
  cases i <;> simp [encode, formatZ, formatP, formatR, brightness_half]

/-- A word that no row selects has a reserved opcode or a must-be-zero bit set (R96, R97). -/
theorem illegalWord_of_decode_error {w : CmdWord} {e : DecodeError} (h : decode w = .error e) : IllegalWord w := by
  rw [decode_by_fields] at h
  split_ifs at h with haInit haHdr haEncPx haEnc1 haEncAll haTx hbInit hbEncRng hbEncAll hbTx
  rw [illegalWord_by_fields]
  split_ifs with hoZ hoHdr hoEncPx hoEnc1 hoEncAll hoAll
  · intro hz
    rcases hoZ with ho | ho | ho | ho
    · exact haInit ⟨ho, hz⟩
    · exact haTx ⟨ho, hz⟩
    · exact hbInit ⟨ho, hz⟩
    · exact hbTx ⟨ho, hz⟩
  · rw [← not_and_or]
    rintro ⟨⟨hr, hg, hb, hz⟩, hl⟩
    exact haHdr ⟨hoHdr, hr, hg, hb, hz, hl⟩
  · rw [← not_and_or]
    exact fun hz => haEncPx ⟨hoEncPx, hz⟩
  · exact fun hz => haEnc1 ⟨hoEnc1, hz⟩
  · exact fun hz => haEncAll ⟨hoEncAll, hz⟩
  · exact fun hz => hbEncAll ⟨hoAll, hz⟩

/-- R97: the words that do not decode are the illegal ones, for a word that decodes is the word of its command. -/
theorem illegalWord_iff (w : CmdWord) : IllegalWord w ↔ ∃ e, decode w = .error e := by
  constructor
  · intro hw
    cases h : decode w with
    | error e => exact ⟨e, rfl⟩
    | ok i =>
      obtain ⟨-, rfl⟩ := encodeAfterDecodeIsIdentity w i h
      exact absurd hw (encode_not_illegalWord i)
  · rintro ⟨e, h⟩
    exact illegalWord_of_decode_error h

/-! ### The fixed table, words and lines -/

/-- Settles O3: the table, `OpRow.selects` and the operand functions are the spec's as written, so each part unfolds to
it. -/
theorem opcodeMapIsTheSpecsTable : Obligations.OpcodeMapIsTheSpecsTable :=
  ⟨rfl, fun _ _ => beq_iff_eq, fun _ => rfl⟩

/-- Settles O6: twelve fixed words, decoded by evaluation. -/
theorem specWordsDecodeAsListed : Obligations.SpecWordsDecodeAsListed := by
  unfold Obligations.SpecWordsDecodeAsListed
  decide

/-- Settles O7: twelve fixed lines, read by evaluation. -/
theorem assemblerLinesGiveTheListedWords : Obligations.AssemblerLinesGiveTheListedWords := by
  unfold Obligations.AssemblerLinesGiveTheListedWords
  decide

end Sys2Proof

namespace Sys2Proof.Machine

/-- An undecodable word is refused, whatever the state (R97, R183). -/
theorem runWord_of_error {w : CmdWord} {e : DecodeError} (h : decode w = .error e) (s : State) :
    runWord w s = .next (s.raise .illegalCommand) := by simp [runWord, h]

theorem runWord_of_ok {w : CmdWord} {i : Instr} (h : decode w = .ok i) (s : State) : runWord w s = exec i s := by
  simp [runWord, h]

/-- Settles O5: the illegal words are the undecodable ones, and `runWord` refuses those. -/
theorem illegalWordIsRefusedWithoutEffect : Obligations.IllegalWordIsRefusedWithoutEffect := by
  refine ⟨illegalWord_iff, fun s w hw => ?_, rfl⟩
  obtain ⟨e, he⟩ := (illegalWord_iff w).mp hw
  exact runWord_of_error he s

/-- Settles O8: at rest a step is the host's next action, here the running of the word. -/
theorem stepRunsTheDecodedCommand : Obligations.StepRunsTheDecodedCommand := by
  intro s w rest hs hh
  have hstep : step s = runWord w (s.issue rest) := by rw [hs.step_eq, hostStep, hh]
  rw [hstep]
  exact ⟨fun i hi => runWord_of_ok hi _, fun e he => runWord_of_error he _⟩

end Sys2Proof.Machine

/-! Transmits whose writes all succeed, and the response each command leaves (spec/30_encoding.md R104; R82, R86). -/

namespace Sys2Proof.Machine

section
variable {x : Side} {s : State}

/-- A configured transmit whose writes all succeed ends with chip-select deasserted and OK (R128, R156). -/
theorem State.transmit_accepted (hc : (s.enc x).cfg = true)
    (hok : ∀ j, j < (s.frame x).length → (s.enc x).replyAt x j = .ok) :
    s.transmit x =
      (s.setEnc x ((s.afterWrites x (s.frame x).length).writesDone.deselect (s.par.hasCs x))).returnOk 0 := by
  have hsend := State.sendAll_afterWrites le_rfl hok
  rw [List.drop_length] at hsend
  simp [State.transmit, hc, hsend, Encoder.sendAll, State.endTransmit]

/-- The bus byte stream of writes that succeed is what they offer (R34). -/
theorem busStream_map_write_ok (ws : List (List Byte)) : busStream (ws.map (fun w => .write w .ok)) = ws.flatten := by
  induction ws with
  | nil => rfl
  | cons w ws ih => rw [List.map_cons, busStream, ih, List.flatten_cons]

/-- A transmit whose writes all succeed adds its frame to the bus byte stream and nothing else (R34, R82, R86). -/
theorem State.transmit_accepted_busStream (hc : (s.enc x).cfg = true)
    (hok : ∀ j, j < (s.frame x).length → (s.enc x).replyAt x j = .ok) :
    busStream ((s.transmit x).enc x).trace = busStream (s.enc x).trace ++ (s.frame x).flatten := by
  rw [State.transmit_accepted hc hok]
  cases hcs : s.par.hasCs x <;> simp [hcs, busStream, busStream_map_write_ok]

end

/-- Settles O26: the stream a successful transmit adds is the writes of its frame, put together. -/
theorem busStreamOfASuccessfulTransmit : Obligations.BusStreamOfASuccessfulTransmit := by
  constructor
  · intro s hc h0 h1 h2
    have hok : ∀ j, j < (s.frame .A).length → (s.enc .A).replyAt .A j = .ok := by
      intro j hj
      have hj : j < 3 := hj
      interval_cases j
      · exact h0
      · exact h1
      · exact h2
    refine ⟨s.transmit .A, (s.frame .A).flatten, rfl, State.transmit_accepted_busStream (x := .A) hc hok, ?_, ?_⟩
    · simp [State.frame, Config.startFrameBytes]
    · simp [State.frame, Config.startFrameBytes]; omega
  · intro s hc h0
    have hok : ∀ j, j < (s.frame .B).length → (s.enc .B).replyAt .B j = .ok := by
      intro j hj
      obtain rfl : j = 0 := Nat.lt_one_iff.mp hj
      exact h0
    refine ⟨s.transmit .B, rfl, ?_, s.bodyB_length⟩
    simpa [State.frame] using State.transmit_accepted_busStream (x := .B) hc hok

/-! ### Responses -/

/-- Everything a transmit can respond (R182, R128, R181, R71). -/
theorem State.transmit_response (x : Side) (s : State) :
    ((s.enc x).cfg = false ∧ (s.transmit x).response = some Exn.notConfigured.response) ∨
    ((s.enc x).cfg = true ∧ (s.transmit x).response = some (okResponse 0)) ∨
    ((s.enc x).cfg = true ∧ ∃ r, (s.transmit x).response = some (Exn.transportError r).response) ∨
    ((s.transmit x).response = s.response ∧ ((s.transmit x).enc x).seq = .transmitting ∧
      ((s.transmit x).enc x).nextReply x = .never) := by
  rcases s.transmit_cases x with ⟨hc, heq⟩ | ⟨hc, e, fin, hsend, heq⟩
  · exact .inl ⟨hc, by rw [heq, State.raise_response]⟩
  · have hend := Encoder.sendAll_end s.par x (s.frame x) ((s.enc x).begin.select (s.par.hasCs x)) (by simp)
    rw [hsend] at hend
    rw [heq, State.endTransmit_enc, State.setEnc_enc]
    rcases hend with ⟨rfl, hseq, hnever⟩ | ⟨rfl, -⟩ | ⟨r, rfl, -⟩
    · exact .inr (.inr (.inr ⟨s.setEnc_response e x, hseq, hnever⟩))
    · exact .inr (.inl ⟨hc, rfl⟩)
    · exact .inr (.inr (.inl ⟨hc, r, rfl⟩))

/-- Everything a range command can respond (R154, R180). -/
theorem State.encodeRange_response (p : Pixel) (start stop : Nat) (s : State) :
    ((start > stop ∨ stop ≥ s.par.nB) ∧ (s.encodeRange p start stop).response = some Exn.rangeError.response) ∨
    (s.encodeRange p start stop).response = some (okResponse 0) := by
  unfold State.encodeRange
  split
  · exact .inl ⟨by assumption, rfl⟩
  · exact .inr rfl

/-- Everything a command can respond (R104, R180): OK, RANGE_ERROR, or what a transmit responds. -/
theorem exec_response {i : Instr} {s t : State} (h : exec i s = .next t) :
    (∃ d, t.response = some (okResponse d) ∧ ((∀ b, i ≠ .aHdr b) → (∀ p b, i ≠ .aEncPx p b) → d = 0)) ∨
    (t.response = some Exn.rangeError.response ∧
      ((∃ p k n, i = .bEncRng p k n) ∨ ((∃ p, i = .bEncAll p) ∧ s.par.nB = 0))) ∨
    (∃ x, i = txCommand x ∧ t = s.transmit x) := by
  cases i with
  | aInit => cases h; exact .inl ⟨0, rfl, fun _ _ => rfl⟩
  | aHdr v => cases h; exact .inl ⟨_, rfl, fun hne _ => absurd rfl (hne v)⟩
  | aEncPx p v => cases h; exact .inl ⟨_, rfl, fun _ hne => absurd rfl (hne p v)⟩
  | aEnc1 p v k =>
    simp only [exec, execAEnc1] at h
    split at h <;> cases h <;> exact .inl ⟨0, rfl, fun _ _ => rfl⟩
  | aEncAll v n => cases h; exact .inl ⟨0, rfl, fun _ _ => rfl⟩
  | aTx => cases h; exact .inr (.inr ⟨.A, rfl, rfl⟩)
  | bInit => cases h; exact .inl ⟨0, rfl, fun _ _ => rfl⟩
  | bEncRng p k n =>
    cases h
    rcases s.encodeRange_response p k n with ⟨-, hr⟩ | hr
    · exact .inr (.inl ⟨hr, .inl ⟨p, k, n, rfl⟩⟩)
    · exact .inl ⟨0, hr, fun _ _ => rfl⟩
  | bEncAll p =>
    cases h
    rcases s.encodeRange_response p 0 (s.par.nB - 1) with ⟨hrange, hr⟩ | hr
    · exact .inr (.inl ⟨hr, .inr ⟨⟨p, rfl⟩, by omega⟩⟩)
    · exact .inl ⟨0, hr, fun _ _ => rfl⟩
  | bTx => cases h; exact .inr (.inr ⟨.B, rfl, rfl⟩)

/-- Settles O49: each response a command can leave has the form and the status the statement allows. -/
theorem everyCommandEndsWithOneResponse : Obligations.EveryCommandEndsWithOneResponse := by
  intro i s t hnone h
  rcases exec_response h with ⟨d, hr, hd⟩ | ⟨hr, hi⟩ | ⟨x, rfl, rfl⟩
  · exact .inr ⟨_, hr, by simpa [okResponse] using hd⟩
  · exact .inr ⟨_, hr, by simpa [Exn.response, Exn.status, Exn.err] using hi⟩
  · rcases s.transmit_response x with ⟨hc, hr⟩ | ⟨hc, hr⟩ | ⟨hc, r, hr⟩ | ⟨hr, hseq, hnever⟩
    · exact .inr ⟨_, hr, by simpa [Exn.response, Exn.status, Exn.err] using ⟨x, rfl, hc⟩⟩
    · exact .inr ⟨_, hr, by simp [okResponse]⟩
    · exact .inr ⟨_, hr, by simpa [Exn.response, Exn.status, Exn.err] using ⟨x, rfl, hc⟩⟩
    · exact .inl ⟨x, rfl, hr.trans hnone, hseq, hnever⟩

end Sys2Proof.Machine

/-! Pseudo-instructions (spec/30_encoding.md R101, R102): what each expands to, and the slots `B.ENCBUF`
leaves. -/

namespace Sys2Proof.Machine

/-- Command number `j` of an expanded pixel list encodes pixel `j` into slot `k + j` alone (R102). -/
theorem expandPixels_getElem? : ∀ (ps : List Pixel) (k j : Nat),
    (expandPixels k ps)[j]? = ps[j]?.map (fun p => .bEncRng p (k + j) (k + j))
  | [], _, _ => rfl
  | p :: ps, k, 0 => rfl
  | p :: ps, k, j + 1 => by
    rw [expandPixels, List.getElem?_cons_succ, expandPixels_getElem? ps, List.getElem?_cons_succ, Nat.add_right_comm,
      Nat.add_assoc]

@[simp] theorem expandPixels_length : ∀ (ps : List Pixel) (k : Nat), (expandPixels k ps).length = ps.length
  | [], _ => rfl
  | p :: ps, k => by rw [expandPixels, List.length_cons, expandPixels_length ps, List.length_cons]

/-- Settles O38: the list of `B.ENCBUF` expands command by command. -/
theorem pseudoInstructionsExpand : Obligations.PseudoInstructionsExpand := by
  refine ⟨fun _ _ => rfl, fun _ _ => rfl, fun ps => ⟨expandPixels_length ps 0, fun k hk => ?_⟩, fun _ => rfl⟩
  have hp : ps[k]? = some ps[k] := List.getElem?_eq_getElem hk
  exact ⟨ps[k], hp, by rw [Pseudo.expand, expandPixels_getElem?, hp, Nat.zero_add]; rfl⟩

/-- Two sequences written one after the other (R15). -/
theorem Memory.writeSeq_append {α : Type} : ∀ (us vs : List α) (m : Memory α) (a : Nat),
    Memory.writeSeq m a (us ++ vs) = Memory.writeSeq (Memory.writeSeq m a us) (a + us.length) vs
  | [], _, _, _ => rfl
  | u :: us, vs, m, a => by
    rw [List.cons_append, Memory.writeSeq, Memory.writeSeq_append us vs, Memory.writeSeq, List.length_cons,
      Nat.add_right_comm, Nat.add_assoc]

/-- `B.ENCRNG` of one slot within the buffer stores that slot and responds OK (R154). -/
theorem exec_bEncRng_one {p : Pixel} {k : Nat} {s : State} (hk : k < s.par.nB) :
    exec (.bEncRng p k k) s = .next ((s.storeSlotB k p).returnOk 0) := by
  rw [exec, execBEncRng, State.encodeRange, if_neg (by omega), Nat.add_sub_cancel_left]
  rfl

theorem runCommands_cons {i : Instr} {s t : State} (h : exec i s = .next t) (rest : List Instr) :
    runCommands (i :: rest) s = runCommands rest t := by rw [runCommands, h]

/-- The expansion of a pixel list that fits writes the slots of its pixels as one sequence of bytes (R102, R154). -/
theorem runCommands_expandPixels : ∀ (ps : List Pixel) (p : Pixel) (k : Nat) (s : State),
    k + (p :: ps).length ≤ s.par.nB →
    runCommands (expandPixels k (p :: ps)) s = .next { s with
      wireB := Memory.writeSeq s.wireB (slotAddrB k) ((p :: ps).flatMap encB), response := some (okResponse 0) }
  | [], p, k, s, hk => by
    rw [expandPixels, runCommands_cons (exec_bEncRng_one hk), List.flatMap_singleton]
    rfl
  | q :: ps, p, k, s, hk => by
    simp only [List.length_cons] at hk
    rw [expandPixels, runCommands_cons (exec_bEncRng_one (by omega)),
      runCommands_expandPixels ps q (k + 1) _
        (by simp only [State.returnOk_par, State.storeSlotB_par, List.length_cons]; omega),
      List.flatMap_cons (xs := q :: ps), Memory.writeSeq_append, encB_length]
    rfl

/-- Byte `j` of the slot of pixel `k` in the slots of a list, put together. -/
theorem flatMap_encB_getElem? : ∀ (ps : List Pixel) (k j : Nat) (p : Pixel), ps[k]? = some p → j < 12 →
    (ps.flatMap encB)[slotAddrB k + j]? = (encB p)[j]?
  | q :: ps, 0, j, p, hp, hj => by
    cases hp
    rw [List.flatMap_cons, slotAddrB, Nat.mul_zero, Nat.zero_add, List.getElem?_append_left (by simpa using hj)]
  | q :: ps, k + 1, j, p, hp, hj => by
    rw [List.flatMap_cons, List.getElem?_append_right (by simp [slotAddrB]; omega), encB_length,
      show slotAddrB (k + 1) + j - 12 = slotAddrB k + j by simp [slotAddrB]; omega]
    exact flatMap_encB_getElem? ps k j p hp hj

theorem flatMap_encB_length (ps : List Pixel) : (ps.flatMap encB).length = slotAddrB ps.length := by
  simp [List.length_flatMap, slotAddrB, Nat.mul_comm]

/-- Settles O39: the commands of the list write one sequence of bytes from address 0, the slots of its pixels. -/
theorem encBufConvertsAWholeBuffer : Obligations.EncBufConvertsAWholeBuffer := by
  refine ⟨fun _ => rfl, fun ps s hne hlen => ⟨Memory.writeSeq s.wireB 0 (ps.flatMap encB), ?_, ?_, ?_⟩⟩
  · obtain ⟨p, ps, rfl⟩ := List.exists_cons_of_ne_nil hne
    exact runCommands_expandPixels ps p 0 s (by omega)
  · intro k p j hp hj
    have hbyte := flatMap_encB_getElem? ps k j p hp hj
    have hin : j < (encB p).length := by simpa using hj
    rw [List.getElem?_eq_getElem hin] at hbyte ⊢
    rw [Memory.read_writeSeq, if_pos (Nat.zero_le _), Nat.sub_zero, hbyte, Option.getD_some]
  · intro a ha
    exact Memory.read_writeSeq_outside _ (.inr (by rw [flatMap_encB_length]; omega))

end Sys2Proof.Machine

/-! Encoder A's commands (spec/40_protocol_a.md): brightness and header, the one-pixel commands, and what the encode
commands leave in `WIRE_A`. -/

namespace Sys2Proof.Machine

/-! ### Brightness and header -/

/-- The clamp is a minimum, so five bits hold it (R120). -/
theorem clamp5_toNat (b : Byte) : (clamp5 b).toNat = min b.toNat 31 := by
  unfold clamp5
  split
  · omega
  · rw [min_eq_right (by omega)]; rfl

theorem clamp5_of_le {b : Byte} (h : b.toNat ≤ 31) : clamp5 b = b := if_pos h

/-- From 31 on the clamp saturates (R120). -/
theorem clamp5_of_ge {b : Byte} (h : 31 ≤ b.toNat) : clamp5 b = 31 :=
  BitVec.eq_of_toNat_eq (by rw [clamp5_toNat, min_eq_right h]; rfl)

/-- A clamped brightness lies in the low five bits of its byte. -/
theorem clamp5_and_low (b : Byte) : clamp5 b &&& 0x1F = clamp5 b := by
  apply BitVec.eq_of_toNat_eq
  rw [BitVec.toNat_and]
  change (clamp5 b).toNat &&& 2 ^ 5 - 1 = _
  rw [Nat.and_two_pow_sub_one_eq_mod, clamp5_toNat]
  omega

/-- So it shares no bit with the three fixed ones of a header (R121). -/
theorem fixedBits_and_clamp5 (b : Byte) : (0xE0 : Byte) &&& clamp5 b = 0 := by
  rw [← clamp5_and_low, BitVec.and_comm, BitVec.and_assoc]
  exact BitVec.and_zero

/-- The header's top three bits are the fixed ones (R132). -/
theorem hdrA_and_high (b : Byte) : hdrA b &&& 0xE0 = 0xE0 := by
  rw [hdrA, BitVec.and_comm, BitVec.and_or_distrib_left, fixedBits_and_clamp5]
  rfl

/-- The header's low five bits are the clamped brightness (R132). -/
theorem hdrA_and_low (b : Byte) : hdrA b &&& 0x1F = clamp5 b := by
  rw [hdrA, BitVec.and_comm, BitVec.and_or_distrib_left, BitVec.and_comm _ (clamp5 b), clamp5_and_low]
  exact BitVec.zero_or

/-- The fixed bits and the intensity do not overlap, so their sum is their union (R121). -/
theorem hdrA_eq_add (b : Byte) : hdrA b = 0xE0 + clamp5 b :=
  (BitVec.add_eq_or_of_and_eq_zero _ _ (fixedBits_and_clamp5 b)).symm

theorem hdrA_ge (b : Byte) : 0xE0 ≤ (hdrA b).toNat := by
  rw [hdrA, BitVec.toNat_or]
  exact Nat.left_le_or

/-- Settles O13: the clamp as a minimum, on each side of 31, and `A.HDR` responds OK by its definition. -/
theorem brightnessClampSaturates : Obligations.BrightnessClampSaturates :=
  ⟨fun b => ⟨clamp5_toNat b, clamp5_of_le, fun h => clamp5_of_ge (by omega)⟩, rfl, fun _ _ => ⟨_, rfl⟩⟩

/-- Settles O14: the fixed bits and the clamped brightness occupy disjoint bits of the header. -/
theorem headerCarriesFixedBitsAndIntensity : Obligations.HeaderCarriesFixedBitsAndIntensity := by
  refine ⟨fun b => ⟨rfl, rfl, hdrA_eq_add b, hdrA_and_high b, ?_, hdrA_ge b⟩, rfl, rfl, rfl, rfl, rfl⟩
  exact (congrArg BitVec.toNat (hdrA_and_low b)).trans (clamp5_toNat b)

/-! ### The commands that only respond, and the INITs -/

/-- One more byte below what is packed already (R104). -/
theorem pack_push {n : Nat} (w : BitVec n) (v : Byte) :
    (w.setWidth 32 <<< 8) ||| v.setWidth 32 = (w ++ v).setWidth 32 := by
  apply BitVec.eq_of_getLsbD_eq
  intro i hi
  simp only [BitVec.getLsbD_or, BitVec.getLsbD_shiftLeft, BitVec.getLsbD_setWidth, BitVec.getLsbD_append]
  by_cases h : i < 8
  · simp [h, hi]
  · simp [h, hi, show i - 8 < 32 by omega, BitVec.getLsbD_of_ge v i (by omega)]

/-- Four packed bytes fill the response data, the first most significant (R104). -/
theorem packData_four (c d e f : Byte) : packData [c, d, e, f] = c ++ d ++ e ++ f := by
  simp only [packData, List.foldl_cons, List.foldl_nil]
  rw [show (0 : BitVec 32) <<< 8 = 0#32 from rfl, BitVec.zero_or, pack_push, pack_push, pack_push, BitVec.setWidth_eq]

/-- Settles O15: the response data is the header with 24 zero bits above it. -/
theorem hdrRespondsWithTheHeader : Obligations.HdrRespondsWithTheHeader := by
  refine ⟨fun b s => ?_, rfl, fun b h => ?_⟩
  · have hdata : (hdrA b).setWidth 32 = (0 : BitVec 24) ++ hdrA b := BitVec.setWidth_eq_append (by decide)
    rw [← hdata]
    rfl
  · rw [hdrA, clamp5_of_ge h]
    rfl

/-- Settles O16: the response data packs the four bytes of the encoding. -/
theorem encPxRespondsWithTheFourBytes : Obligations.EncPxRespondsWithTheFourBytes := by
  refine ⟨fun p b s => ⟨rfl, ?_⟩, rfl⟩
  rw [← packData_four]
  rfl

/-- Settles O21: `Encoder.configure` and the response are the statement's fields, as written. -/
theorem initConfiguresItsTransport : Obligations.InitConfiguresItsTransport :=
  fun _ => ⟨rfl, rfl⟩

/-! ### What the encode commands leave in `WIRE_A` -/

/-- `A.ENCALL` changes `WIRE_A` to what its loop leaves there, and responds OK (R127). -/
theorem exec_aEncAll (b : Byte) (count : Nat) (s : State) : exec (.aEncAll b count) s = .next { s with
    wireA := (s.encodeLeading b (min count s.par.nA)).wireA, response := some (okResponse 0) } := by
  obtain ⟨m, hm⟩ := s.encodeLeading_frame b (min count s.par.nA)
  rw [exec, execAEncAll, hm]
  rfl

/-- The four bytes of a slot `A.ENCALL` has encoded: header, blue, green, red (R127, R122). -/
theorem State.encodeLeading_slot (s : State) (v : Byte) {n k : Nat} (h : k < n) :
    (s.encodeLeading v n).readWireA (slotAddrA k) = hdrA v ∧
    (s.encodeLeading v n).readWireA (slotAddrA k + 1) = (s.readPixA k).blue ∧
    (s.encodeLeading v n).readWireA (slotAddrA k + 2) = (s.readPixA k).green ∧
    (s.encodeLeading v n).readWireA (slotAddrA k + 3) = (s.readPixA k).red := by
  have hbyte := fun j hj => s.encodeLeading_readWireA_slot v n k j h hj
  exact ⟨(Option.some.inj (hbyte 0 (by decide))).symm, (Option.some.inj (hbyte 1 (by decide))).symm,
    (Option.some.inj (hbyte 2 (by decide))).symm, (Option.some.inj (hbyte 3 (by decide))).symm⟩

/-- Settles O17: an index within the pixel count stores one slot, and any other index stores nothing. -/
theorem enc1StoresOneSlotOrNothing : Obligations.Enc1StoresOneSlotOrNothing := by
  refine fun p b index s => ⟨fun h => ?_, fun h => ?_, rfl⟩
  · have hbyte := fun j (hj : j < (encA p b).length) =>
      Memory.read_writeSeq_inside Config.initialWireA (m := s.wireA) (a := slotAddrA index) hj
    refine ⟨(s.storeSlotA index p b).wireA, ?_, hbyte 0 (by simp), hbyte 1 (by simp), hbyte 2 (by simp),
      hbyte 3 (by simp), fun a ha => Memory.read_writeSeq_outside _ ha⟩
    rw [exec, execAEnc1, if_pos h]
    rfl
  · rw [exec, execAEnc1, if_neg (by omega)]
    rfl

/-- Settles O18: the loop's slots by `State.encodeLeading_slot`, and the bytes after them as they were. -/
theorem encAllStoresTheLeadingSlots : Obligations.EncAllStoresTheLeadingSlots := fun b count s =>
  ⟨_, exec_aEncAll b count s, fun _ hk => s.encodeLeading_slot b hk,
    fun a ha => s.encodeLeading_readWireA_after b _ a ha⟩

/-- Byte `j` of slot `k` in a transmit's body is the one in `WIRE_A` (R24, R128). -/
theorem State.bodyA_slot (s : State) {k j : Nat} (hk : k < s.par.nA) (hj : j < 4) :
    s.bodyA[4 * k + j]? = some (s.readWireA (slotAddrA k + j)) :=
  s.bodyA_getElem? (by omega)

/-- Settles O19: a transmit body is `WIRE_A` byte by byte, and with the full count every slot of it is encoded. -/
theorem fullEncodeFillsTheWholeBody : Obligations.FullEncodeFillsTheWholeBody := by
  intro b s
  refine ⟨_, exec_aEncAll b s.par.nA s, State.bodyA_length _, fun k hk => ?_⟩
  rw [Nat.min_self]
  have hbyte := fun j (hj : j < 4) => State.bodyA_slot { s with
    wireA := (s.encodeLeading b s.par.nA).wireA, response := some (okResponse 0) } hk hj
  obtain ⟨hheader, hblue, hgreen, hred⟩ := s.encodeLeading_slot b hk
  exact ⟨(hbyte 0 (by decide)).trans (congrArg some hheader), (hbyte 1 (by decide)).trans (congrArg some hblue),
    (hbyte 2 (by decide)).trans (congrArg some hgreen), (hbyte 3 (by decide)).trans (congrArg some hred)⟩

end Sys2Proof.Machine

/-! Encoding again (spec/40_protocol_a.md R135, spec/41_protocol_b.md R164): each encode loop is one `MemWrite`, and the
same `MemWrite` a second time finds its bytes in place. -/

namespace Sys2Proof.Machine

/-- The same `MemWrite` a second time leaves a canonical memory as it is. -/
theorem Memory.writeSeq_writeSeq {α : Type} {m : Memory α} (hm : m.wf = true) (a : Nat) (vs : List α) :
    Memory.writeSeq (Memory.writeSeq m a vs) a vs = Memory.writeSeq m a vs := by
  refine Memory.writeSeq_of_find (Memory.writeSeq_wf hm) fun j hj => ?_
  rw [Memory.find_writeSeq, if_pos (Nat.le_add_right a j), Nat.add_sub_cancel_left, List.getElem?_eq_getElem hj]
  rfl

/-- The bytes of the first `n` pixels of `PIX_A`, encoded (R122, R127). -/
def State.encodedPixels (s : State) (v : Byte) (n : Nat) : List Byte :=
  (List.range n).flatMap fun k => encA (s.readPixA k) v

theorem State.encodedPixels_succ (s : State) (v : Byte) (n : Nat) :
    s.encodedPixels v (n + 1) = s.encodedPixels v n ++ encA (s.readPixA n) v := by
  simp [State.encodedPixels, List.range_succ]

theorem State.encodedPixels_length (s : State) (v : Byte) (n : Nat) : (s.encodedPixels v n).length = slotAddrA n := by
  simp [State.encodedPixels, List.length_flatMap, slotAddrA, Nat.mul_comm]

/-- `A.ENCALL`'s loop is one `MemWrite` of its pixels, encoded (R127). -/
theorem State.encodeLeading_wireA (s : State) (v : Byte) : ∀ n : Nat,
    (s.encodeLeading v n).wireA = Memory.writeSeq s.wireA 0 (s.encodedPixels v n)
  | 0 => rfl
  | n + 1 => by
    rw [State.encodeLeading, State.storeSlotA_wireA, State.encodeLeading_readPixA, State.encodeLeading_wireA s v n,
      State.encodedPixels_succ, Memory.writeSeq_append, State.encodedPixels_length, Nat.zero_add]

/-- `B.ENCRNG`'s loop is one `MemWrite` of the pixel's slot, repeated (R154). -/
theorem State.fillSlots_eq (p : Pixel) (start : Nat) (s : State) : ∀ n : Nat, s.fillSlots p start n =
    { s with wireB := Memory.writeSeq s.wireB (slotAddrB start) ((List.replicate n p).flatMap encB) }
  | 0 => rfl
  | n + 1 => by
    have haddr : slotAddrB start + ((List.replicate n p).flatMap encB).length = slotAddrB (start + n) := by
      rw [flatMap_encB_length, List.length_replicate, slotAddrB, slotAddrB, slotAddrB, Nat.mul_add]
    rw [State.fillSlots, State.fillSlots_eq p start s n, List.replicate_succ', List.flatMap_append,
      Memory.writeSeq_append, haddr, List.flatMap_singleton]
    rfl

/-- A range command issued again leaves what it left (R164): the range check answers as before. -/
theorem State.encodeRange_encodeRange {s : State} (hw : Memory.wf s.wireB = true) (p : Pixel) (start stop : Nat) :
    (s.encodeRange p start stop).encodeRange p start stop = s.encodeRange p start stop := by
  by_cases h : start > stop ∨ stop ≥ s.par.nB
  · have herr : ∀ t : State, t.par = s.par → t.encodeRange p start stop = t.raise .rangeError :=
      fun t ht => if_pos (by rwa [ht])
    rw [herr s rfl, herr (s.raise .rangeError) rfl]
    rfl
  · have hok : ∀ t : State, t.par = s.par → t.encodeRange p start stop =
        (t.fillSlots p start (stop + 1 - start)).returnOk 0 := fun t ht => if_neg (by rwa [ht])
    rw [hok s rfl, hok _ (by simp), State.fillSlots_eq p start s, State.fillSlots_eq]
    simp only [State.returnOk, Memory.writeSeq_writeSeq hw]

/-- `A.ENC1` issued again leaves what it left (R135). -/
theorem exec_aEnc1_again {p : Pixel} {b : Byte} {k : Nat} {s t : State} (hw : Memory.wf s.wireA = true)
    (h : exec (.aEnc1 p b k) s = .next t) : exec (.aEnc1 p b k) t = .next t := by
  simp only [exec, execAEnc1] at h ⊢
  split at h <;> cases h
  · rw [State.returnOk_par, State.storeSlotA_par, if_pos ‹_›]
    simp only [State.returnOk, State.storeSlotA, Memory.writeSeq_writeSeq hw]
  · rw [State.returnOk_par, if_neg ‹_›]
    rfl

/-- `A.ENCALL` issued again leaves what it left (R135): it finds the same pixels. -/
theorem exec_aEncAll_again {b : Byte} {n : Nat} {s t : State} (hw : Memory.wf s.wireA = true)
    (h : exec (.aEncAll b n) s = .next t) : exec (.aEncAll b n) t = .next t := by
  rw [exec_aEncAll, State.encodeLeading_wireA] at h ⊢
  cases h
  exact congrArg (fun m => Host.Outcome.next { s with wireA := m, response := some (okResponse 0) })
    (Memory.writeSeq_writeSeq hw 0 (s.encodedPixels b (min n s.par.nA)))

/-- Settles O20: each encode command stores one sequence of bytes that depends on nothing it stores to. -/
theorem encodingTwiceIsEncodingOnce : Obligations.EncodingTwiceIsEncodingOnce := by
  intro i s t hai hbi hat hbt hwA hwB h
  cases i with
  | aInit => exact absurd rfl hai
  | bInit => exact absurd rfl hbi
  | aTx => exact absurd rfl hat
  | bTx => exact absurd rfl hbt
  | aHdr b => cases h; rfl
  | aEncPx p b => cases h; rfl
  | aEnc1 p b k => exact exec_aEnc1_again hwA h
  | aEncAll b n => exact exec_aEncAll_again hwA h
  | bEncRng p k n =>
    cases h
    exact congrArg Host.Outcome.next (State.encodeRange_encodeRange hwB p k n)
  | bEncAll p =>
    cases h
    have hpar : (s.encodeRange p 0 (s.par.nB - 1)).par = s.par := by
      obtain ⟨m, r, heq⟩ := s.encodeRange_frame p 0 (s.par.nB - 1)
      rw [heq]
    rw [exec, execBEncAll, hpar, State.encodeRange_encodeRange hwB]

end Sys2Proof.Machine

/-! Transmission (spec/40_protocol_a.md R128, R129; spec/41_protocol_b.md R156, R157): what a successful transmit leaves
in its encoder, and the sequencer's small steps reaching what the command answers. -/

namespace Sys2Proof.Machine

/-! ### A successful transmit, in full -/

/-- The encoder a transmit leaves whose writes all succeed, field by field (R128, R156). -/
theorem State.transmit_accepted_enc (x : Side) (s : State) :
    (s.afterWrites x (s.frame x).length).writesDone.deselect (s.par.hasCs x) = { s.enc x with
      seq := .idle, phase := 0,
      cs := if s.par.hasCs x = true then .driven true else (s.enc x).cs,
      trace := (s.enc x).trace ++ (if s.par.hasCs x = true then [.setLevel false] else []) ++
        (s.frame x).map (fun w => .write w .ok) ++ (if s.par.hasCs x = true then [.setLevel true] else []),
      replies := ((s.enc x).afterReplies (s.frame x).length).replies,
      draws := ((s.enc x).afterReplies (s.frame x).length).draws,
      onBus := (s.enc x).onBus ++ (s.frame x).flatten } := by
  obtain ⟨hreplies, hdraws⟩ := Encoder.afterReplies_congr (s.frame x).length
    (e := (s.enc x).begin.select (s.par.hasCs x)) (e' := s.enc x) (by simp) (by simp)
  rw [State.afterWrites, List.take_length, Encoder.accepted, hreplies, hdraws]
  cases s.par.hasCs x <;>
    simp [Encoder.deselect, Encoder.writesDone, Encoder.select, Encoder.begin, Encoder.setLevel, Encoder.emit]

/-- Settles O24: `State.transmit_accepted` for the three writes of encoder A's frame. -/
theorem aTxSendsTheFramedBuffer : Obligations.ATxSendsTheFramedBuffer := by
  intro s hc h0 h1 h2
  have hok : ∀ j, j < (s.frame .A).length → (s.enc .A).replyAt .A j = .ok := by
    intro j hj
    have hj : j < 3 := hj
    interval_cases j
    · exact h0
    · exact h1
    · exact h2
  have hbus : (s.frame .A).flatten =
      [0x00, 0x00, 0x00, 0x00] ++ s.bodyA ++ List.replicate s.par.endFrameBytes 0xFF := by
    simp [State.frame, rep, Config.startFrameBytes, List.replicate]
  rw [exec, execATx, State.transmit_accepted (x := .A) hc hok, State.transmit_accepted_enc, hbus, ← List.append_assoc,
    ← List.append_assoc]
  rfl

/-! ### The order of steps -/

/-- Settles O9: the three branches of `step`, the last one a host without an action. -/
theorem stepServesABusyEncoderFirst : Obligations.StepServesABusyEncoderFirst :=
  fun s => ⟨fun ha => if_pos ha, fun ha hb => (if_neg (not_not_intro ha)).trans (if_pos hb),
    fun hs hh => by rw [hs.step_eq, hostStep, hh]⟩

/-! ### Small steps and big step -/

/-- From `s` the sequencer of `x` reaches `t` in at most `n` steps, and is there Idle or waiting on a write that is
never answered (R129, R157, R71). -/
def SeqEndsIn (x : Side) (n : Nat) (s t : State) : Prop :=
  (∃ k, k ≤ n ∧ seqRun x k s = .next t) ∧ ((t.enc x).seq = .idle ∨ seqStep x t = .fault .transportNeverAnswers)

section
variable {x : Side} {s t u : State} {n : Nat}

theorem SeqEndsIn.of_idle (n : Nat) (h : (s.enc x).seq = .idle) : SeqEndsIn x n s s :=
  ⟨⟨0, Nat.zero_le n, rfl⟩, .inl h⟩

theorem SeqEndsIn.of_unanswered (n : Nat) (h : seqStep x s = .fault .transportNeverAnswers) : SeqEndsIn x n s s :=
  ⟨⟨0, Nat.zero_le n, rfl⟩, .inr h⟩

/-- A step of a busy sequencer comes before the others. -/
theorem SeqEndsIn.step (hbusy : (s.enc x).seq ≠ .idle) (h : seqStep x s = .next u) (hu : SeqEndsIn x n u t) :
    SeqEndsIn x (n + 1) s t := by
  obtain ⟨⟨k, hk, hrun⟩, hend⟩ := hu
  exact ⟨⟨k + 1, Nat.succ_le_succ hk, by rw [seqRun, if_neg hbusy, h]; exact hrun⟩, hend⟩

end

/-! The sequencer's step in each state R129 and R157 list, for an encoder `e` in the place of that of `x`. -/

section
variable {x : Side} {s : State} {e : Encoder}

theorem seqStep_selecting (h : e.seq = .selecting) :
    seqStep x (s.setEnc x e) = .next (s.setEnc x (e.select (s.par.hasCs x))) := by
  simp [seqStep, h]

theorem seqStep_deselecting (h : e.seq = .deselecting) :
    seqStep x (s.setEnc x e) = .next ((s.setEnc x (e.deselect (s.par.hasCs x))).returnOk 0) := by
  simp [seqStep, h]

theorem seqStep_writesDone (h : e.seq = .transmitting) (hphase : e.phase = (s.frame x).length) :
    seqStep x (s.setEnc x e) = .next (s.setEnc x e.writesDone) := by
  simp [seqStep, h, hphase]

theorem seqStep_transmitting {bytes : List Byte} (h : e.seq = .transmitting)
    (hnext : (s.frame x)[e.phase]? = some bytes) :
    seqStep x (s.setEnc x e) = seqWrite x bytes (s.setEnc x e) := by
  simp [seqStep, h, hnext]

/-- From a sequencer that has the writes `ws` of its frame before it, the small steps reach what the write loop leaves:
one step for each write that is answered, and two to end (R128, R129). -/
theorem seqEndsIn_sendAll : ∀ (ws : List (List Byte)) (e : Encoder), e.seq = .transmitting →
    e.phase ≤ (s.frame x).length → (s.frame x).drop e.phase = ws →
    SeqEndsIn x (ws.length + 2) (s.setEnc x e)
      ((s.setEnc x (Encoder.sendAll s.par x ws e).1).endTransmit (Encoder.sendAll s.par x ws e).2)
  | [], e, hs, hle, hdrop => by
    have hphase : e.phase = (s.frame x).length := le_antisymm hle (List.drop_eq_nil_iff.mp hdrop)
    refine .step (by simp [hs]) (seqStep_writesDone hs hphase) ?_
    exact .step (by simp) (seqStep_deselecting rfl) (.of_idle 0 (by simp))
  | w :: ws, e, hs, hle, hdrop => by
    have hnext : (s.frame x)[e.phase]? = some w := by rw [← List.head?_drop, hdrop]; rfl
    have hstep := seqStep_transmitting hs hnext
    simp only [seqWrite, State.setEnc_enc, State.setEnc_setEnc, State.setEnc_par] at hstep
    rw [Encoder.sendAll]
    rcases e.write_cases x w with ⟨-, hw⟩ | ⟨r, sent, -, hw⟩ | ⟨-, hw⟩ <;> simp only [hw] at hstep ⊢
    · have hlt : e.phase < (s.frame x).length := (List.getElem?_eq_some_iff.mp hnext).1
      refine .step (by simp [hs]) hstep (seqEndsIn_sendAll ws _ (by simpa using hs) (by simpa using hlt) ?_)
      simpa using congrArg List.tail hdrop
    · exact .step (by simp [hs]) hstep (.of_idle _ (by simp))
    · exact .of_unanswered _ hstep

end

/-- The small steps of a transmit that gets under way reach what the command answers (R128, R129, R156, R157). -/
theorem seqEndsIn_transmit {x : Side} {s : State} (hc : (s.enc x).cfg = true) :
    SeqEndsIn x 6 (startTransmit x s) (s.transmit x) := by
  have hlen : (s.frame x).length ≤ 3 := by cases x <;> simp
  have hloop := seqEndsIn_sendAll (s := s) (x := x) (s.frame x) ((s.enc x).begin.select (s.par.hasCs x))
    (by simp) (by simp) (by simp)
  obtain ⟨⟨k, hk, hrun⟩, hend⟩ := SeqEndsIn.step (by simp) (seqStep_selecting (e := (s.enc x).begin) rfl) hloop
  rw [startTransmit, if_pos hc, State.transmit, if_pos hc]
  exact ⟨⟨k, by omega, hrun⟩, hend⟩

/-- Settles O29: without INIT both forms refuse, and otherwise the sequencer ends where the write loop does. -/
theorem smallStepsReachWhatTheCommandAnswers : Obligations.SmallStepsReachWhatTheCommandAnswers := by
  intro x s t h
  cases (exec_txCommand x s).symm.trans h
  exact ⟨fun hc => by rw [startTransmit, State.transmit, hc]; rfl, seqEndsIn_transmit⟩

end Sys2Proof.Machine

/-! Encoder B (spec/41_protocol_b.md): the colour word and the bytes of a slot, what the range commands leave in `WIRE_B`,
and its transmit; and that no transmit looks at the bus configuration. -/

namespace Sys2Proof.Machine

/-! ### The colour word -/

/-- The three channel fields do not overlap, so their union is a concatenation (R151). -/
theorem wordB_eq_append (p : Pixel) : wordB p = p.green ++ p.red ++ p.blue := by
  rw [← BitVec.setWidth_eq (p.green ++ p.red ++ p.blue), BitVec.setWidth_append_append_eq_shiftLeft_setWidth_or]
  rfl

/-- A concatenation determines its parts. -/
theorem bitVec_append_inj {m n : Nat} {x x' : BitVec m} {y y' : BitVec n} (h : x ++ y = x' ++ y') : x = x' ∧ y = y' := by
  have hhigh := congrArg (BitVec.extractLsb' n m) h
  have hlow := congrArg (BitVec.extractLsb' 0 n) h
  rw [BitVec.extractLsb'_append_eq_left, BitVec.extractLsb'_append_eq_left] at hhigh
  rw [BitVec.extractLsb'_append_eq_right, BitVec.extractLsb'_append_eq_right] at hlow
  exact ⟨hhigh, hlow⟩

/-- Two pixels with one colour word are equal (R151). -/
theorem wordB_injective {p q : Pixel} (h : wordB p = wordB q) : p = q := by
  rw [wordB_eq_append, wordB_eq_append] at h
  obtain ⟨hgr, hb⟩ := bitVec_append_inj h
  obtain ⟨hg, hr⟩ := bitVec_append_inj hgr
  cases p
  cases q
  rw [Pixel.mk.injEq]
  exact ⟨hr, hg, hb⟩

/-- Settles O31: the symbols and pure red by their definitions, the colour word by `wordB_eq_append`. -/
theorem symbolAndColourWord : Obligations.SymbolAndColourWord :=
  ⟨rfl, rfl, rfl, fun p => ⟨rfl, wordB_eq_append p⟩⟩

/-! ### The bytes of a slot -/

/-- The symbols of two bits, one above the other, are the byte that stands for the pair (R152). -/
theorem pairByte_eq_append (first second : Bool) : pairByte first second = symB first ++ symB second := by
  cases first <;> cases second <;> rfl

/-- Byte `j` of a slot stands for the word bits `23 - 2j` and `22 - 2j` (R152). -/
theorem slotByteB_eq_pairByte (w : ColourWord) (j : Nat) :
    slotByteB w j = pairByte (w.getLsbD (23 - 2 * j)) (w.getLsbD (22 - 2 * j)) := by
  rw [slotByteB]
  cases w.getLsbD (23 - 2 * j) <;> cases w.getLsbD (22 - 2 * j) <;> rfl

/-- The byte of a pair is one of the four legal ones (R85). -/
theorem legalByteB_pairByte (first second : Bool) : LegalByteB (pairByte first second) := by
  cases first <;> cases second <;> simp [LegalByteB, pairByte]

theorem encB_legal {p : Pixel} {v : Byte} (h : v ∈ encB p) : LegalByteB v := by
  obtain ⟨j, -, rfl⟩ := List.mem_map.mp h
  rw [slotByteB_eq_pairByte]
  exact legalByteB_pairByte _ _

/-- A slot expands green, then red, then blue (R152). -/
theorem encB_eq_channels (p : Pixel) : encB p = channelBytes p.green ++ channelBytes p.red ++ channelBytes p.blue := by
  simp only [encB, List.range, List.range.loop, List.map, slotByteB_eq_pairByte, wordB_eq_append, BitVec.getLsbD_append]
  rfl

/-! ### Decoding a slot -/

/-- The decoder takes the byte of a pair apart again (R89). -/
theorem decByte_pairByte (first second : Bool) : decByte (pairByte first second) = some (first, second) := by
  cases first <;> cases second <;> rfl

/-- Two bits below the word shifted past them give the word shifted by two less. -/
theorem shiftRight_push_pair (w : ColourWord) (n : Nat) :
    (w >>> (2 * (n + 1)) <<< 2) |||
      (BitVec.ofBool (w.getLsbD (2 * n + 1)) ++ BitVec.ofBool (w.getLsbD (2 * n))).setWidth 24 = w >>> (2 * n) := by
  apply BitVec.eq_of_getLsbD_eq
  intro i hi
  simp only [BitVec.getLsbD_or, BitVec.getLsbD_shiftLeft, BitVec.getLsbD_setWidth, BitVec.getLsbD_append]
  match i with
  | 0 => simp
  | 1 => simp
  | i + 2 => simp [Nat.mul_add, hi, Nat.add_assoc, Nat.add_comm 2 i]

/-- The last `n` bytes of a slot, decoded below the bits before them, complete the word (R89). -/
theorem decBytes_slot (w : ColourWord) : ∀ n, n ≤ 12 →
    decBytes (w >>> (2 * n)) ((List.range' (12 - n) n).map (slotByteB w)) = some w
  | 0, _ => by simp [decBytes]
  | n + 1, hn => by
    have hbyte : decByte (slotByteB w (12 - (n + 1))) = some (w.getLsbD (2 * n + 1), w.getLsbD (2 * n)) := by
      rw [slotByteB_eq_pairByte, decByte_pairByte, show 23 - 2 * (12 - (n + 1)) = 2 * n + 1 by omega,
        show 22 - 2 * (12 - (n + 1)) = 2 * n by omega]
    rw [List.range'_succ, List.map_cons, show 12 - (n + 1) + 1 = 12 - n by omega, decBytes, hbyte]
    simp only [shiftRight_push_pair]
    exact decBytes_slot w n (by omega)

theorem decB_encB (p : Pixel) : decB (encB p) = some (wordB p) := by
  have hslot := decBytes_slot (wordB p) 12 le_rfl
  rw [BitVec.ushiftRight_eq_zero (by decide)] at hslot
  rw [decB, if_pos (encB_length p), encB, List.range_eq_range']
  exact hslot

theorem encB_injective {p q : Pixel} (h : encB p = encB q) : p = q :=
  wordB_injective (Option.some.inj (by rw [← decB_encB, ← decB_encB, h]))

/-- Settles O33: the slot by `decB_encB`, the symbols by `decSym`'s definition. -/
theorem decodingASlotGivesTheWordBack : Obligations.DecodingASlotGivesTheWordBack :=
  ⟨decB_encB, rfl, rfl, fun _ hE h8 => (if_neg hE).trans (if_neg h8)⟩

/-- Settles O32: the bytes by `slotByteB_eq_pairByte`; no two pixels share a slot, since a slot decodes. -/
theorem slotOfEncoderB : Obligations.SlotOfEncoderB := by
  refine ⟨fun p => ⟨encB_length p, fun j hj => ?_, encB_eq_channels p, fun _ => encB_legal⟩, ⟨rfl, rfl, rfl, rfl⟩,
    fun _ _ => encB_injective⟩
  rw [encB_getElem? p hj, slotByteB_eq_pairByte, pairByte_eq_append]

/-! ### What the range commands leave in `WIRE_B` -/

/-- `B.ENCRNG` over a legal range changes `WIRE_B` to what its loop leaves there, and responds OK (R154). -/
theorem exec_bEncRng_ok {p : Pixel} {start stop : Nat} {s : State} (hle : start ≤ stop) (hlt : stop < s.par.nB) :
    exec (.bEncRng p start stop) s = .next { s with
      wireB := (s.fillSlots p start (stop + 1 - start)).wireB, response := some (okResponse 0) } := by
  rw [exec, execBEncRng, State.encodeRange, if_neg (by omega), State.fillSlots_eq]
  rfl

/-- `B.ENCRNG` over any other range is refused and stores nothing (R154, R180). -/
theorem exec_bEncRng_rangeError {p : Pixel} {start stop : Nat} {s : State} (h : stop < start ∨ s.par.nB ≤ stop) :
    exec (.bEncRng p start stop) s = .next (s.raise .rangeError) := by
  rw [exec, execBEncRng, State.encodeRange, if_pos h]

/-- Settles O35: a legal range by what the loop leaves at each byte, any other by the refusal. -/
theorem encRngFillsItsRangeOrNothing : Obligations.EncRngFillsItsRangeOrNothing := by
  refine ⟨fun p start stop s => ⟨fun hle hlt => ⟨_, exec_bEncRng_ok hle hlt, fun k j hk hk' hj => ?_, fun a ha => ?_⟩,
    exec_bEncRng_rangeError, rfl⟩, rfl⟩
  · exact s.fillSlots_readWireB_slot p start (stop + 1 - start) k j hk (by omega) hj
  · exact s.fillSlots_readWireB_outside p start (stop + 1 - start) a
      (by rwa [show start + (stop + 1 - start) = stop + 1 by omega])

/-- `B.ENCALL` is `B.ENCRNG` over all slots (R155). -/
theorem exec_bEncAll (p : Pixel) (s : State) : exec (.bEncAll p) s = exec (.bEncRng p 0 (s.par.nB - 1)) s := rfl

/-- With a slot to fill, `B.ENCALL` fills all of them and responds OK (R155). -/
theorem exec_bEncAll_ok (p : Pixel) {s : State} (h : 1 ≤ s.par.nB) : exec (.bEncAll p) s = .next { s with
    wireB := (s.fillSlots p 0 s.par.nB).wireB, response := some (okResponse 0) } := by
  rw [exec_bEncAll, exec_bEncRng_ok (Nat.zero_le _) (by omega), show s.par.nB - 1 + 1 - 0 = s.par.nB by omega]

/-- Settles O36: `B.ENCALL` by its definition, and the loop over all slots byte by byte. -/
theorem encAllBFillsTheWholeBuffer : Obligations.EncAllBFillsTheWholeBuffer := by
  refine fun p s => ⟨exec_bEncAll p s, fun h => ⟨_, exec_bEncAll_ok p h, fun k j hk hj => ?_, fun a ha => ?_⟩⟩
  · exact s.fillSlots_readWireB_slot p 0 s.par.nB k j (Nat.zero_le k) (by omega) hj
  · exact s.fillSlots_readWireB_outside p 0 s.par.nB a (.inr (by rwa [Nat.zero_add]))

/-- After the loop over all slots every byte of `WIRE_B` is a byte of the pixel's slot (R155). -/
theorem State.fillSlots_readWireB_mem (s : State) (p : Pixel) {n a : Nat} (h : a < 12 * n) :
    (s.fillSlots p 0 n).readWireB a ∈ encB p := by
  have hslot := s.fillSlots_readWireB_slot p 0 n (a / 12) (a % 12) (Nat.zero_le _) (by omega) (by omega)
  rw [slotAddrB, Nat.div_add_mod] at hslot
  exact List.mem_of_getElem? hslot

/-- Every byte encoder B would send is one that `WIRE_B` holds (R156). -/
theorem State.readWireB_of_mem_bodyB {s : State} {v : Byte} (h : v ∈ s.bodyB) :
    ∃ a, a < 12 * s.par.nB ∧ s.readWireB a = v := by
  obtain ⟨a, ha⟩ := List.mem_iff_getElem?.mp h
  have hlt : a < 12 * s.par.nB := by
    rw [← State.bodyB_length]
    exact (List.getElem?_eq_some_iff.mp ha).1
  rw [State.bodyB_getElem? s hlt] at ha
  exact ⟨a, hlt, Option.some.inj ha⟩

/-- Settles O37: encoder B's body is read byte by byte from the filled slots, encoder A's headers are `hdrA`'s. -/
theorem fullEncodeLeavesNoForeignByte : Obligations.FullEncodeLeavesNoForeignByte := by
  constructor
  · refine fun p s h => ⟨_, exec_bEncAll_ok p h, State.bodyB_length _, fun v hv => ?_⟩
    obtain ⟨a, ha, rfl⟩ := State.readWireB_of_mem_bodyB hv
    exact encB_legal (s.fillSlots_readWireB_mem p ha)
  · intro b s
    obtain ⟨t, ht, -, hbody⟩ := fullEncodeFillsTheWholeBody b s
    exact ⟨t, ht, fun k hk => ⟨hdrA b, (hbody k hk).1, hdrA_and_high b⟩⟩

/-! ### Transmits -/

/-- Settles O25: `State.transmit_accepted` for the one write of encoder B's frame. -/
theorem bTxSendsTheBareBuffer : Obligations.BTxSendsTheBareBuffer := by
  intro s hc h0
  have hok : ∀ j, j < (s.frame .B).length → (s.enc .B).replyAt .B j = .ok := by
    intro j hj
    obtain rfl : j = 0 := Nat.lt_one_iff.mp hj
    exact h0
  have hbus : (s.frame .B).flatten = s.bodyB := List.flatten_singleton
  rw [exec, execBTx, State.transmit_accepted (x := .B) hc hok, State.transmit_accepted_enc, hbus]
  rfl

/-- The encoder with another bus configuration in its transport (R38). -/
def Encoder.withBusCfg (c : Option BusCfg) (e : Encoder) : Encoder := { e with busCfg := c }

section
variable (c : Option BusCfg) (e : Encoder) (p : Params) (x : Side)

theorem Encoder.setLevel_withBusCfg (hasCs level : Bool) :
    (e.withBusCfg c).setLevel hasCs level = (e.setLevel hasCs level).withBusCfg c := by cases hasCs <;> rfl

theorem Encoder.select_withBusCfg (hasCs : Bool) :
    (e.withBusCfg c).select hasCs = (e.select hasCs).withBusCfg c := by cases hasCs <;> rfl

theorem Encoder.deselect_withBusCfg (hasCs : Bool) :
    (e.withBusCfg c).deselect hasCs = (e.deselect hasCs).withBusCfg c := by cases hasCs <;> rfl

theorem Encoder.abort_withBusCfg : (e.withBusCfg c).abort p x = (e.abort p x).withBusCfg c := by
  unfold Encoder.abort
  cases p.csOnError with
  | held => rfl
  | released => cases p.hasCs x <;> rfl

theorem Encoder.dropReply_withBusCfg : (e.withBusCfg c).dropReply = e.dropReply.withBusCfg c := by
  unfold Encoder.dropReply
  rw [show (e.withBusCfg c).replies = e.replies from rfl]
  split <;> rfl

theorem Encoder.write_withBusCfg (bytes : List Byte) : (e.withBusCfg c).write x bytes =
    (e.write x bytes).map fun q => (q.1, q.2.withBusCfg c) := by
  have hnext : (e.withBusCfg c).nextReply x = e.nextReply x := Encoder.nextReply_congr rfl rfl
  unfold Encoder.write
  rw [hnext, Encoder.dropReply_withBusCfg]
  cases e.nextReply x <;> rfl

/-- The write loop takes another bus configuration along and does the same (R158). -/
theorem Encoder.sendAll_withBusCfg : ∀ (ws : List (List Byte)) (e : Encoder),
    Encoder.sendAll p x ws (e.withBusCfg c) =
      ((Encoder.sendAll p x ws e).1.withBusCfg c, (Encoder.sendAll p x ws e).2)
  | [], e => congrArg (·, TxEnd.done) (e.writesDone.deselect_withBusCfg c (p.hasCs x))
  | w :: ws, e => by
    simp only [Encoder.sendAll, Encoder.write_withBusCfg]
    match e.write x w with
    | some (.ok, e') => exact Encoder.sendAll_withBusCfg ws e'.countWrite
    | some (.err t, e') => exact congrArg (·, TxEnd.failed t) (e'.abort_withBusCfg c p x)
    | none => rfl

theorem State.endTransmit_setEnc (s : State) (fin : TxEnd) :
    (s.setEnc x e).endTransmit fin = (s.endTransmit fin).setEnc x e := by
  cases fin <;> cases x <;> rfl

/-- A transmit takes another bus configuration along and does the same (R158). -/
theorem State.transmit_withBusCfg (s : State) :
    (s.setEnc x ((s.enc x).withBusCfg c)).transmit x =
      (s.transmit x).setEnc x (((s.transmit x).enc x).withBusCfg c) := by
  have hbegin : ((s.enc x).withBusCfg c).begin = (s.enc x).begin.withBusCfg c := rfl
  have hcfg : ((s.enc x).withBusCfg c).cfg = (s.enc x).cfg := rfl
  unfold State.transmit
  simp only [State.setEnc_enc, State.setEnc_par, State.frame_setEnc, State.setEnc_setEnc, hbegin, hcfg,
    Encoder.select_withBusCfg, Encoder.sendAll_withBusCfg]
  split
  · simp [State.endTransmit_setEnc]
  · cases x <;> rfl

end

/-- Settles O30: a transmit commutes with replacing the bus configuration. -/
theorem transmitIgnoresTheBusConfiguration : Obligations.TransmitIgnoresTheBusConfiguration := by
  intro x s t c h
  cases (exec_txCommand x s).symm.trans h
  exact (exec_txCommand x _).trans (congrArg _ (State.transmit_withBusCfg c x s))

end Sys2Proof.Machine

/-! Exceptions (spec/60_exceptions.md): a command ends in a response and not in a stop, a transmit is refused before INIT
and ends at its first failed write, and a transport error is carried through unchanged. -/

namespace Sys2Proof.Machine

/-! ### Errors are responses -/

/-- Settles O44: `exec_frame` writes out the next state of each command. -/
theorem everyCommandGoesOn : Obligations.EveryCommandGoesOn := exec_goesOn

/-- Settles O22: a transmit before INIT is refused, and the other commands respond OK or RANGE_ERROR only. -/
theorem transmitBeforeInitIsRefused : Obligations.TransmitBeforeInitIsRefused := by
  refine ⟨fun x s hc => ?_, fun i s t r hi h hr => ?_, rfl⟩
  · rcases s.transmit_cases x with ⟨-, heq⟩ | ⟨hc', -⟩
    · rw [exec_txCommand, heq]; rfl
    · exact absurd hc' (by simp [hc])
  · rcases exec_response h with ⟨d, hd, -⟩ | ⟨he, -⟩ | ⟨x, hx, -⟩
    · cases hd.symm.trans hr; exact nofun
    · cases he.symm.trans hr; exact nofun
    · exact absurd hx (hi x)

/-! ### The first failed write -/

/-- Using up a reply moves the transport only. -/
theorem Encoder.dropReply_eq (e : Encoder) :
    e.dropReply = { e with replies := e.dropReply.replies, draws := e.dropReply.draws } := by
  unfold Encoder.dropReply
  split <;> rfl

/-- The encoder once write `bytes` has failed with `t`, and a prefix of `sent` bytes has reached the bus (R188). -/
def Encoder.failedWrite (e : Encoder) (bytes : List Byte) (t : TransportError) (sent : Nat) : Encoder :=
  { e.dropReply.emit (.write bytes (.err t)) with onBus := e.onBus ++ bytes.take sent }

/-- The write loop stops at a write that fails (R186). -/
theorem Encoder.sendAll_failed {x : Side} {e : Encoder} {t : TransportError} {sent : Nat}
    (herr : e.nextReply x = .err t sent) (p : Params) (bytes : List Byte) (rest : List (List Byte)) :
    Encoder.sendAll p x (bytes :: rest) e = ((e.failedWrite bytes t sent).abort p x, .failed t) := by
  simp [Encoder.sendAll, Encoder.write, herr, Encoder.failedWrite]

/-- What `abort_transmit_X` leaves, whatever CS_ON_ERROR is (R186, R187). -/
theorem Encoder.abort_eq (e : Encoder) (p : Params) (x : Side) : e.abort p x = { e with
    seq := .idle, phase := 0,
    cs := if releasesCs p x = true then .driven true else e.cs,
    trace := e.trace ++ (if releasesCs p x = true then [.setLevel true] else []) } := by
  cases hce : p.csOnError <;> cases hcs : p.hasCs x <;>
    simp [Encoder.abort, Encoder.setLevel, Encoder.emit, releasesCs, hce, hcs]

/-- A failed transmit deasserts chip-select where one is wired and CS_ON_ERROR is released (R187). -/
theorem releasesCs_iff (p : Params) (x : Side) :
    releasesCs p x = true ↔ p.hasCs x = true ∧ p.csOnError = .released := by
  cases h : p.csOnError <;> simp [releasesCs, h]

section
variable {x : Side} {s : State} {k : Nat} {bytes : List Byte} {t : TransportError} {sent : Nat}

@[simp] theorem State.afterWrites_cfg : (s.afterWrites x k).cfg = (s.enc x).cfg := by
  simp [State.afterWrites, Encoder.accepted]

@[simp] theorem State.afterWrites_busCfg : (s.afterWrites x k).busCfg = (s.enc x).busCfg := by
  simp [State.afterWrites, Encoder.accepted]

@[simp] theorem State.afterWrites_onBus :
    (s.afterWrites x k).onBus = (s.enc x).onBus ++ ((s.frame x).take k).flatten := by
  simp [State.afterWrites, Encoder.accepted]

/-- A transmit whose write number `k` is the first to fail stops there with TRANSPORT_ERROR (R186, R181). -/
theorem State.transmit_failed (hc : (s.enc x).cfg = true) (hw : (s.frame x)[k]? = some bytes)
    (hok : ∀ j, j < k → (s.enc x).replyAt x j = .ok) (herr : (s.enc x).replyAt x k = .err t sent) :
    s.transmit x = (s.setEnc x (((s.afterWrites x k).failedWrite bytes t sent).abort s.par x)).raise
      (.transportError t) := by
  obtain ⟨hk, hget⟩ := List.getElem?_eq_some_iff.mp hw
  have hnext : (s.afterWrites x k).nextReply x = .err t sent := by rw [State.afterWrites_nextReply hk.le, herr]
  have hsend : Encoder.sendAll s.par x ((s.frame x).drop k) (s.afterWrites x k) =
      (((s.afterWrites x k).failedWrite bytes t sent).abort s.par x, .failed t) := by
    rw [List.drop_eq_getElem_cons hk, hget, Encoder.sendAll_failed hnext]
  simp [State.transmit, hc, State.sendAll_afterWrites hk.le hok, hsend, State.endTransmit]

/-- The replies used up when write number `k` has been answered (R184). -/
theorem State.afterWrites_dropReply (hk : k ≤ (s.frame x).length) :
    (s.afterWrites x k).dropReply.replies = ((s.enc x).afterReplies (k + 1)).replies ∧
    (s.afterWrites x k).dropReply.draws = ((s.enc x).afterReplies (k + 1)).draws := by
  have hlen : ((s.frame x).take k).length = k := by simp [hk]
  obtain ⟨hr, hd⟩ := Encoder.afterReplies_congr k
    (e := (s.enc x).begin.select (s.par.hasCs x)) (e' := s.enc x) (by simp) (by simp)
  rw [Encoder.afterReplies_succ]
  exact Encoder.dropReply_congr (by rw [← hr, State.afterWrites, Encoder.accepted, hlen])
    (by rw [← hd, State.afterWrites, Encoder.accepted, hlen])

/-- The encoder a transmit leaves whose write number `k` is the first to fail, field by field (R186, R187, R188). -/
theorem State.transmit_failed_enc (hk : k ≤ (s.frame x).length) :
    ((s.afterWrites x k).failedWrite bytes t sent).abort s.par x = { s.enc x with
      seq := .idle, phase := 0,
      cs := if s.par.hasCs x = true then .driven (decide (s.par.csOnError = .released)) else (s.enc x).cs,
      trace := (s.enc x).trace ++ (if s.par.hasCs x = true then [.setLevel false] else []) ++
        ((s.frame x).take k).map (fun w => .write w .ok) ++ [.write bytes (.err t)] ++
        (if s.par.hasCs x = true ∧ s.par.csOnError = .released then [.setLevel true] else []),
      replies := ((s.enc x).afterReplies (k + 1)).replies, draws := ((s.enc x).afterReplies (k + 1)).draws,
      onBus := (s.enc x).onBus ++ ((s.frame x).take k).flatten ++ bytes.take sent } := by
  obtain ⟨hreplies, hdraws⟩ := State.afterWrites_dropReply hk
  rw [Encoder.abort_eq, Encoder.failedWrite, Encoder.dropReply_eq, hreplies, hdraws]
  have hcs : (if s.par.hasCs x = true ∧ s.par.csOnError = .released then CsLevel.driven true
      else if s.par.hasCs x = true then .driven false else (s.enc x).cs) =
      if s.par.hasCs x = true then .driven (decide (s.par.csOnError = .released)) else (s.enc x).cs := by
    cases s.par.hasCs x <;> cases s.par.csOnError <;> rfl
  simp only [releasesCs_iff, Encoder.emit, State.afterWrites_cfg, State.afterWrites_cs, State.afterWrites_trace,
    State.afterWrites_busCfg, State.afterWrites_onBus, hcs]

end

/-- Settles O27: the transmit by `State.transmit_failed`, what it leaves by `State.transmit_failed_enc`. -/
theorem transmitStopsAtTheFirstFailedWrite : Obligations.TransmitStopsAtTheFirstFailedWrite := by
  refine ⟨fun x s k bytes t sent hc hw hok herr => ?_, rfl⟩
  have hk : k ≤ (s.frame x).length := (List.getElem?_eq_some_iff.mp hw).1.le
  rw [exec_txCommand, State.transmit_failed hc hw hok herr, State.transmit_failed_enc hk]
  rfl

/-! ### A transport error is only carried -/

section
variable (f : TransportError → TransportError) (s : State)

/-- An error without a transport's value responds the same (R104, R181). -/
theorem State.raise_relabel {r : Exn} (hr : r.err = none) : (s.relabel f).raise r = (s.raise r).relabel f := by
  simp [State.raise, State.relabel, Response.relabel, Exn.response, hr]

theorem State.issue_relabel (rest : List HostAction) : (s.relabel f).issue rest = (s.issue rest).relabel f := rfl

/-- What an INIT does (R123, R153). -/
theorem State.init_relabel (x : Side) (hz : Nat) (m : BusMode) :
    ((s.relabel f).setEnc x (((s.relabel f).enc x).configure hz m)).returnOk 0 =
      ((s.setEnc x ((s.enc x).configure hz m)).returnOk 0).relabel f := by
  rw [State.relabel_enc, Encoder.configure_relabel, State.setEnc_relabel, State.returnOk_relabel]

theorem State.encodeLeading_relabel (v : Byte) : ∀ n : Nat,
    (s.relabel f).encodeLeading v n = (s.encodeLeading v n).relabel f
  | 0 => rfl
  | n + 1 => by simp only [State.encodeLeading, State.encodeLeading_relabel v n]; rfl

theorem State.fillSlots_relabel (p : Pixel) (start : Nat) : ∀ n : Nat,
    (s.relabel f).fillSlots p start n = (s.fillSlots p start n).relabel f
  | 0 => rfl
  | n + 1 => by simp only [State.fillSlots, State.fillSlots_relabel p start n]; rfl

theorem State.encodeRange_relabel (p : Pixel) (start stop : Nat) :
    (s.relabel f).encodeRange p start stop = (s.encodeRange p start stop).relabel f := by
  unfold State.encodeRange
  rw [State.relabel_par]
  split
  · exact s.raise_relabel f rfl
  · rw [State.fillSlots_relabel, State.returnOk_relabel]

end

section
variable {f : TransportError → TransportError} {s t : State} {x : Side}

/-- The next answer of each transport is the relabelled one. -/
theorem State.answersRelabelled.nextReply (h : s.answersRelabelled f) (x : Side) :
    ((s.enc x).relabel f).nextReply x = relabelReply f ((s.enc x).nextReply x) := by
  rw [← State.relabel_enc]
  exact h x 0 (by omega)

/-- A transmit asks for three answers at most, and carries the errors in them along (R181). -/
theorem State.transmit_relabel (h : s.answersRelabelled f) (x : Side) :
    (s.relabel f).transmit x = (s.transmit x).relabel f := by
  have hlen : (s.frame x).length ≤ 3 := by cases x <;> simp
  have hsend := Encoder.sendAll_relabel f s.par x (s.frame x) ((s.enc x).begin.select (s.par.hasCs x)) fun j hj => by
    have hans := h x j (by omega)
    rw [State.relabel_enc] at hans
    rw [Encoder.replyAt_congr (e' := (s.enc x).relabel f) j (by simp) (by simp), hans]
    exact congrArg (relabelReply f) (Encoder.replyAt_congr j (by simp) (by simp))
  unfold State.transmit
  simp only [State.relabel_enc, State.relabel_par, State.relabel_frame, Encoder.relabel_cfg, Encoder.begin_relabel,
    Encoder.select_relabel, hsend, State.setEnc_relabel, State.endTransmit_relabel]
  split
  · rfl
  · exact s.raise_relabel f rfl

/-- A command carries transport errors along and looks at none (R181). -/
theorem exec_relabel {i : Instr} (ha : s.answersRelabelled f) (h : exec i s = .next t) :
    exec i (s.relabel f) = .next (t.relabel f) := by
  cases i with
  | aInit => cases h; exact congrArg _ (State.init_relabel f s .A _ _)
  | aHdr b => cases h; rfl
  | aEncPx p b => cases h; rfl
  | aEnc1 p b k =>
    simp only [exec, execAEnc1] at h ⊢
    split at h <;> cases h
    · exact if_pos ‹_›
    · exact if_neg ‹_›
  | aEncAll b n => cases h; simp [exec, execAEncAll, State.encodeLeading_relabel, State.returnOk_relabel]
  | aTx => cases h; simp [exec, execATx, State.transmit_relabel ha]
  | bInit => cases h; exact congrArg _ (State.init_relabel f s .B _ _)
  | bEncRng p k n => cases h; simp [exec, execBEncRng, State.encodeRange_relabel]
  | bEncAll p => cases h; simp [exec, execBEncAll, State.encodeRange_relabel]
  | bTx => cases h; simp [exec, execBTx, State.transmit_relabel ha]

/-- So does the running of a command word (R96, R183). -/
theorem runWord_relabel {w : CmdWord} (ha : s.answersRelabelled f) (h : runWord w s = .next t) :
    runWord w (s.relabel f) = .next (t.relabel f) := by
  unfold runWord at h ⊢
  cases hd : decode w with
  | ok i => rw [hd] at h; exact exec_relabel ha h
  | error e => rw [hd] at h; cases h; exact congrArg _ (State.raise_relabel f s rfl)

/-- One write of the sequencer, answered, carries its error along (R129 T2, R186). -/
theorem seqWrite_relabel {bytes : List Byte} (ha : s.answersRelabelled f) (h : seqWrite x bytes s = .next t) :
    seqWrite x bytes (s.relabel f) = .next (t.relabel f) := by
  unfold seqWrite at h ⊢
  rw [State.relabel_enc, Encoder.write_relabel f _ x bytes (ha.nextReply x)]
  match hw : (s.enc x).write x bytes with
  | some (.ok, e) => rw [hw] at h; cases h; simp [WriteResult.relabel, Encoder.countWrite_relabel, State.setEnc_relabel]
  | some (.err r, e) =>
    rw [hw] at h; cases h
    simp only [Option.map_some, WriteResult.relabel, State.relabel_par, Encoder.abort_relabel, State.setEnc_relabel]
    exact congrArg _ (State.endTransmit_relabel f _ (.failed r))
  | none => rw [hw] at h; cases h

/-- So does every step of the sequencer (R129, R157). -/
theorem seqStep_relabel (ha : s.answersRelabelled f) (h : seqStep x s = .next t) :
    seqStep x (s.relabel f) = .next (t.relabel f) := by
  unfold seqStep at h ⊢
  simp only [State.relabel_enc, State.relabel_frame, State.relabel_par, Encoder.relabel_seq, Encoder.relabel_phase]
  cases hs : (s.enc x).seq <;> simp only [hs] at h ⊢
  case idle => cases h
  case selecting => cases h; rw [Encoder.select_relabel, State.setEnc_relabel]
  case transmitting =>
    cases hw : (s.frame x)[(s.enc x).phase]? with
    | some bytes => rw [hw] at h; exact seqWrite_relabel ha h
    | none =>
      simp only [hw] at h ⊢
      split at h <;> cases h
      rw [if_pos ‹_›, Encoder.writesDone_relabel, State.setEnc_relabel]
  case deselecting => cases h; rw [Encoder.deselect_relabel, State.setEnc_relabel, State.returnOk_relabel]

/-- The host's next action runs a command word, or touches no transport error (R103). -/
theorem hostStep_relabel (ha : s.answersRelabelled f) (h : hostStep s = .next t) :
    hostStep (s.relabel f) = .next (t.relabel f) := by
  unfold hostStep at h ⊢
  rw [State.relabel_host]
  split at h
  · cases h; rfl
  · rename_i w rest _
    rw [State.issue_relabel]
    exact runWord_relabel ha h
  all_goals
    obtain ⟨hlt, rfl⟩ := guardAddress_next h
    exact if_pos hlt

end

/-- Settles O51: a command by `exec_relabel`, a step by what it runs. -/
theorem transportErrorsAreOnlyCarried : Obligations.TransportErrorsAreOnlyCarried := by
  intro f s t ha
  refine ⟨fun i => exec_relabel ha, fun h => ?_⟩
  unfold step
  rcases step_cases h with ⟨hA, hseq⟩ | ⟨hA, hB, hseq⟩ | ⟨hs, hhost⟩
  · simp [hA, seqStep_relabel ha hseq]
  · simp [hA, hB, seqStep_relabel ha hseq]
  · simp [hs.1, hs.2, hostStep_relabel ha hhost]

end Sys2Proof.Machine
